-- ==== Sys2Proof/Word.lean ====
section
/-! DEFINITION. The word types of the id3tag-codec block (spec 00_scope.md section 4, the parameter table). -/

namespace Sys2Proof

/-- A byte: an input cell, a command word (8 bits). -/
abbrev Byte := BitVec 8

/-- The integer result `RES` (32 bits). -/
abbrev Word := BitVec 32

/-- One element of the output buffer (21 bits). -/
abbrev Elem := BitVec 21

/-- One UTF-16 code unit (16 bits). -/
abbrev CodeUnit := BitVec 16

end Sys2Proof
end

