-- ==== Sys2Proof/Syntax.lean ====
section
/-! DEFINITION. The instructions of the block: one constructor for each row of spec/opcode_table.json. -/

namespace Sys2Proof

/-- The three commands (30_encoding.md R60, format `C`) and the ten selector rows that the second decoding stage finds
under `DTX` (R80, format `S`). A selector row whose pattern has don't-care bits keeps the whole selector byte. -/
inductive Instr where
  /-- `DSS`, decode synchsafe (R62, R90). -/
  | dss
  /-- `DBE`, decode plain big-endian (R63, R95). -/
  | dbe
  /-- `DTX`, decode text (R64, R110). -/
  | dtx
  /-- `DTX` with selector `0x00`: Latin-1/raw (R70, R112). -/
  | dtxSel0
  /-- `DTX` with selector `0x01`: UTF-16 with optional mark (R71, R115). -/
  | dtxSel1
  /-- `DTX` with selector `0x02`: as selector `0x01` (R72, R115). -/
  | dtxSel2
  /-- `DTX` with selector `0x03`: UTF-8 passed through (R73, R113). -/
  | dtxSel3
  /-- `DTX` with a selector matching `000001xx` (R74, R114). -/
  | dtxOther04 (sel : Byte)
  /-- `DTX` with a selector matching `00001xxx` (R74, R114). -/
  | dtxOther08 (sel : Byte)
  /-- `DTX` with a selector matching `0001xxxx` (R74, R114). -/
  | dtxOther10 (sel : Byte)
  /-- `DTX` with a selector matching `001xxxxx` (R74, R114). -/
  | dtxOther20 (sel : Byte)
  /-- `DTX` with a selector matching `01xxxxxx` (R74, R114). -/
  | dtxOther40 (sel : Byte)
  /-- `DTX` with a selector matching `1xxxxxxx` (R74, R114). -/
  | dtxOther80 (sel : Byte)
  deriving DecidableEq, Repr

end Sys2Proof
end

