-- ==== Sys2Proof/WellFormed.lean ====
section
/-! DEFINITION. When an instruction is well formed: the selector byte it keeps matches its row's pattern. -/

namespace Sys2Proof

/-- A byte matches a table row when its bits under the row's mask are the row's match bits (30_encoding.md R80). -/
def matchesRow (mask bits b : Byte) : Bool := b &&& mask == bits

/-- Only the six rows with don't-care bits have anything to check: their selector lies in the row's range (R74, R80). -/
def Instr.wf : Instr → Bool
  | .dss | .dbe | .dtx | .dtxSel0 | .dtxSel1 | .dtxSel2 | .dtxSel3 => true
  | .dtxOther04 sel => matchesRow 0xFC#8 0x04#8 sel
  | .dtxOther08 sel => matchesRow 0xF8#8 0x08#8 sel
  | .dtxOther10 sel => matchesRow 0xF0#8 0x10#8 sel
  | .dtxOther20 sel => matchesRow 0xE0#8 0x20#8 sel
  | .dtxOther40 sel => matchesRow 0xC0#8 0x40#8 sel
  | .dtxOther80 sel => matchesRow 0x80#8 0x80#8 sel

end Sys2Proof
end

