-- ==== Sys2Proof/Decode.lean ====
section
/-! DEFINITION. The two-stage decoder (30_encoding.md R80), total on any bytes, and the encoder. -/

namespace Sys2Proof

/-- Why a word is no instruction. -/
inductive DecodeError where
  /-- There is no command word at all. -/
  | noWord
  /-- The command word is none of `0x01`, `0x02`, `0x03` (R65). -/
  | illegalCommand (w : Byte)
  deriving DecidableEq, Repr

/-- Stage 1: the command word, the whole byte compared (R61 to R65). -/
def decodeCommand (w : Byte) : Except DecodeError Instr :=
  if w = 0x01#8 then .ok .dss
  else if w = 0x02#8 then .ok .dbe
  else if w = 0x03#8 then .ok .dtx
  else .error (.illegalCommand w)

/-- Stage 2, for `DTX` only: the selector byte. The ten rows cover every byte (R70 to R74, R80). -/
def decodeSelector (sel : Byte) : Instr :=
  if sel = 0x00#8 then .dtxSel0
  else if sel = 0x01#8 then .dtxSel1
  else if sel = 0x02#8 then .dtxSel2
  else if sel = 0x03#8 then .dtxSel3
  else if matchesRow 0xFC#8 0x04#8 sel then .dtxOther04 sel
  else if matchesRow 0xF8#8 0x08#8 sel then .dtxOther08 sel
  else if matchesRow 0xF0#8 0x10#8 sel then .dtxOther10 sel
  else if matchesRow 0xE0#8 0x20#8 sel then .dtxOther20 sel
  else if matchesRow 0xC0#8 0x40#8 sel then .dtxOther40 sel
  else .dtxOther80 sel

/-- The decoder: the first byte is the command word, the second, if there is one, is the first input byte. Stage 2 is
meaningful only when there is a first input byte (R80); what follows it is payload, not instruction. -/
def decode : List Byte → Except DecodeError Instr
  | [] => .error .noWord
  | [w] => decodeCommand w
  | w :: sel :: _ =>
    match decodeCommand w with
    | .ok .dtx => .ok (decodeSelector sel)
    | r => r

/-- The encoder: the command word and, for a selector row, the selector byte (R62 to R64, R70 to R74, R80). -/
def encode : Instr → List Byte
  | .dss => [0x01#8]
  | .dbe => [0x02#8]
  | .dtx => [0x03#8]
  | .dtxSel0 => [0x03#8, 0x00#8]
  | .dtxSel1 => [0x03#8, 0x01#8]
  | .dtxSel2 => [0x03#8, 0x02#8]
  | .dtxSel3 => [0x03#8, 0x03#8]
  | .dtxOther04 sel => [0x03#8, sel]
  | .dtxOther08 sel => [0x03#8, sel]
  | .dtxOther10 sel => [0x03#8, sel]
  | .dtxOther20 sel => [0x03#8, sel]
  | .dtxOther40 sel => [0x03#8, sel]
  | .dtxOther80 sel => [0x03#8, sel]

/-- The bytes of a table row's word, as the block holds them. A row of format `S` is eight bits of selector and stands
under the command `DTX`; a row of format `C` is eight bits of command. The words 1, 2 and 3 belong to both formats: as
eight bits they are read as commands, as sixteen bits (command first) all rows can be written (log 12). -/
def tableBytes (nbits w : Nat) : List Byte :=
  if nbits = 8 then
    match decodeCommand (BitVec.ofNat 8 w) with
    | .ok _ => [BitVec.ofNat 8 w]
    | .error _ => [0x03#8, BitVec.ofNat 8 w]
  else if nbits = 16 then [BitVec.ofNat 8 w, BitVec.ofNat 8 (w / 256)]
  else []

/-- The instruction the decoder reads from a table row's word. -/
def decodeTableWord (nbits w : Nat) : Option Instr :=
  match decode (tableBytes nbits w) with
  | .ok i => some i
  | .error _ => none

end Sys2Proof
end

