-- ==== Sys2Proof/Config.lean ====
section
/-! DEFINITION. What an implementation fixes (00_scope.md R4) and the values the spec leaves unspecified.
Every constant without a body is FREE: nothing can be proved of its value, so a theorem holds whatever it is. -/

namespace Sys2Proof.Config

/-- By how much the input buffer's capacity exceeds 5. FREE: the spec leaves `IBUF_CAP` open (R4, D5, U16; log 3). -/
opaque ibufCapExtra : Nat

/-- `IBUF_CAP`, any number that is at least 5 (R4). -/
def ibufCap : Nat := ibufCapExtra + 5

/-- `OBUF_CAP = IBUF_CAP - 1` (R4, R126). -/
def obufCap : Nat := ibufCap - 1

/-- `LENW = ceil(log2(IBUF_CAP + 1))`, the width of `ILEN` and `OLEN` (R4). -/
def lenw : Nat := Nat.clog 2 (ibufCap + 1)

/-- How many host turns pass between an accepted `CMD` write and the block's step. FREE: a finite, unspecified number
(R194, R204, U15; log 2). -/
opaque busyDelay : Nat → Nat

/-- What a read returns where the spec calls its value unspecified. FREE (R28, R29, R35, U3, U4, U12; log 7). -/
opaque freeRead : Nat → Nat

/-- What an input cell that nothing has written holds. FREE (R32: `IBUF` is unspecified after reset; U5; log 4). -/
opaque unwrittenInput : Nat → Byte

end Sys2Proof.Config
end

