-- ==== Sys2Proof/Machine/State.lean ====
section
/-! DEFINITION. The state of one block and of the host that drives it (10_state.md R10), and the state after reset (R32,
70_reset_and_hazards.md R191). -/

namespace Sys2Proof.Machine

/-- `PHASE` (R12). Code 3 never occurs (R11, R34, U11), so it has no constructor. -/
inductive Phase where
  /-- 0: no command accepted since reset. -/
  | idle
  /-- 1: a command has been accepted and is not yet completed. -/
  | busy
  /-- 2: the most recently accepted command is completed. -/
  | done
  deriving DecidableEq, Repr

/-- `STATUS` (R18, R172). Code 7 is never produced (R18, U11), so it has no constructor. -/
inductive Status where
  | ok
  | illegalCmd
  | shortInput
  | longInput
  | oddLength
  | unpairedSurrogate
  | inputOverflow
  deriving DecidableEq, Repr

/-- `OKIND` (R19). -/
inductive Kind where
  | none
  | bytechar
  | utf8raw
  | scalar
  deriving DecidableEq, Repr

/-- The eleven registers the host sees, in the order of their numbers 0 to 10 (R11). -/
inductive Reg where
  | phase | cmd | inpush | inclr | ilen | flags | status | res | olen | okind | out
  deriving DecidableEq, Repr

/-- One step of the host or of the platform. -/
inductive Txn where
  /-- `HostWrite(reg, data)`, the register by its number (R11, R78). -/
  | write (reg : Nat) (data : Byte)
  /-- `HostRead(reg)`, the register by its number; the index matters for `OUT` only (R11, R29). -/
  | read (reg : Nat) (index : Nat)
  /-- `WAIT`: repeat `HostRead(PHASE)` until it returns `DONE` (R78). -/
  | wait
  /-- The end of the pseudo-instruction `TEXT`: `RD OUT[i]` for `i = 0 .. OLEN-1` (R79). -/
  | readAll
  /-- The platform's event `Reset` (R190). -/
  | reset
  deriving DecidableEq, Repr

/-- What one `HostRead` returned; a register's value is delivered as a number (20_memory.md R45). -/
structure ReadEntry where
  reg : Reg
  index : Nat
  value : Nat
  deriving DecidableEq, Repr

/-- A private buffer: its written cells by index. Its canonical form is `Memory.wf`; an index that is not listed holds
no specified value. The input buffer is a list of `Host.Cell`. -/
abbrev Memory (w : Nat) := List (Nat × BitVec w)

/-- Why the block stops. -/
inductive Fault where
  /-- Raised by a legal command whose `ILEN` is above `IBUF_CAP`: it would read input cells that do not exist (R40).
  No reachable state does this (R15, R34). Safe. -/
  | inputBeyondCapacity
  deriving DecidableEq, Repr

/-- Why a step is refused. -/
inductive Refusal where
  /-- An instruction that has no meaning yet, by its mnemonic. No arm of `exec` raises it. Safe. -/
  | notModelled (mnemonic : String)
  /-- Raised by a host transaction that names a register number above 10: "a model refuses it" (R35, U13). Safe. -/
  | noSuchRegister (reg : Nat)
  deriving DecidableEq, Repr

/-- The architectural state of R10, then the environment the model adds (logs 1, 2, 7). -/
structure State where
  /-- `PHASE` (R12). -/
  phase : Phase
  /-- `LCMD`, read as `CMD` (R13). -/
  lcmd : Byte
  /-- `IBUF` (R14, R40). -/
  ibuf : Memory 8
  /-- `ILEN` (R15). -/
  ilen : Nat
  /-- `IOVF`, `FLAGS[0]` (R16). -/
  iovf : Bool
  /-- `HERR`, `FLAGS[1]` (R17). -/
  herr : Bool
  /-- `STATUS` (R18). -/
  status : Status
  /-- `RES` (R20). -/
  res : Word
  /-- `OKIND` (R19). -/
  okind : Kind
  /-- `OLEN` (R21). -/
  olen : Nat
  /-- `OBUF` (R21, R40). -/
  obuf : Memory 21
  /-- Model's own: the host's transactions still to be performed, in order (R22, R78). -/
  script : List Txn
  /-- Model's own: what the host's reads returned, newest first. -/
  reads : List ReadEntry
  /-- Model's own: how many host turns may still come before the block's step (R194, R204). -/
  delay : Nat
  /-- Model's own: how many free values have been drawn. -/
  draws : Nat
  deriving DecidableEq, Repr

/-- The state right after reset (R32, R191); the model's own fields are empty or 0 (DESIGN CHOICE, logs 1, 2, 7), and no
cell of a buffer is listed, since their contents are unspecified (logs 4, 5). -/
def State.reset : State where
  phase := .idle
  lcmd := 0x00#8
  ibuf := []
  ilen := 0
  iovf := false
  herr := false
  status := .ok
  res := 0
  okind := .none
  olen := 0
  obuf := []
  script := []
  reads := []
  delay := 0
  draws := 0

end Sys2Proof.Machine
end

