-- ==== Sys2Proof/Machine/Flags.lean ====
section
/-! DEFINITION. The two flags `IOVF` and `HERR`, the register `FLAGS`, and the codes of the enumerated registers. -/

namespace Sys2Proof.Machine

/-- The code of `PHASE` (R12, R77). -/
def Phase.code : Phase → BitVec 2
  | .idle => 0
  | .busy => 1
  | .done => 2

/-- The code of `STATUS` (R18, R77). -/
def Status.code : Status → BitVec 3
  | .ok => 0
  | .illegalCmd => 1
  | .shortInput => 2
  | .longInput => 3
  | .oddLength => 4
  | .unpairedSurrogate => 5
  | .inputOverflow => 6

/-- The code of `OKIND` (R19, R77). -/
def Kind.code : Kind → BitVec 2
  | .none => 0
  | .bytechar => 1
  | .utf8raw => 2
  | .scalar => 3

/-- The register `FLAGS`: bit 0 is `IOVF`, bit 1 is `HERR` (R11). -/
def State.flags (s : State) : BitVec 2 := BitVec.ofBool s.herr ++ BitVec.ofBool s.iovf

/-- A write to `INPUSH`, `INCLR` or `CMD` in `BUSY` is dropped and sets `HERR` (R17, R24 to R26). -/
def State.flagProtocolError (s : State) : State := { s with herr := true }

/-- A push into a full input buffer is dropped and sets `IOVF` (R16, R24). -/
def State.flagOverflow (s : State) : State := { s with iovf := true }

end Sys2Proof.Machine
end

