-- ==== Sys2Proof/Machine/Ops.lean ====
section
/-! DEFINITION. The named operations over the buffers and registers: cells, what completes a command, `raise`, reset. -/

namespace Sys2Proof.Machine

/-- The value of a cell, if one is specified. -/
def Memory.read {w : Nat} : Memory w → Nat → Option (BitVec w)
  | [], _ => none
  | (k, v) :: m, a => if k = a then some v else Memory.read m a

/-- Write one cell, keeping the indices rising (`MemWrite`, 20_memory.md R44). -/
def Memory.write {w : Nat} : Memory w → Nat → BitVec w → Memory w
  | [], a, x => [(a, x)]
  | (k, v) :: m, a, x =>
    if a < k then (a, x) :: (k, v) :: m
    else if a = k then (a, x) :: m
    else (k, v) :: Memory.write m a x

/-- Write consecutive cells from index `a` on, in ascending order (R44). -/
def Memory.writeAll {w : Nat} (m : Memory w) (a : Nat) : List (BitVec w) → Memory w
  | [] => m
  | x :: xs => Memory.writeAll (Memory.write m a x) (a + 1) xs

/-- The canonical form: indices strictly rising. An unlisted index holds no specified value, so no entry equals one. -/
abbrev Memory.wf {w : Nat} (m : Memory w) : Prop := m.Pairwise fun p q => p.1 < q.1

/-- The five components a command computes (R30): `olen` is the number of elements. -/
structure Result where
  status : Status
  res : Word
  kind : Kind
  elems : List Elem
  deriving DecidableEq, Repr

/-- The result of a command that ends in an error: "(code, 0, 0, 0, [])" (R30, 60_exceptions.md R171). -/
def errorResult (code : Status) : Result := ⟨code, 0, .none, []⟩

/-- The result of a successful integer command (R30: `kind = 0`, `olen = 0`). -/
def intResult (v : Word) : Result := ⟨.ok, v, .none, []⟩

/-- The result of a successful text command (R30: `res = 0`). -/
def textResult (k : Kind) (elems : List Elem) : Result := ⟨.ok, 0, k, elems⟩

/-- What every completed command writes (R30): all four result registers, `OBUF[0 .. olen-1]`, and `PHASE`. The other
cells of `OBUF` are unspecified from here on (R21, R124, R171), so they are no longer listed (log 5). -/
def State.complete (s : State) (r : Result) : State :=
  { s with
    phase := .done
    status := r.status
    res := r.res
    okind := r.kind
    olen := r.elems.length
    obuf := Memory.writeAll [] 0 r.elems }

/-- `raise <Code>`: an error is a completion, no control transfer (60_exceptions.md R170, R171, R181). -/
def State.raise (s : State) (code : Status) : State := s.complete (errorResult code)

/-- `IBUF[i]`. A cell nothing has written holds a free value (R32, log 4). -/
def State.inByte (s : State) (i : Nat) : Byte := (Memory.read s.ibuf i).getD (Config.unwrittenInput i)

/-- The input of a command, `IBUF[0 .. ILEN-1]` (R30). -/
def State.input (s : State) : List Byte := (List.range s.ilen).map s.inByte

/-- `OBUF[i]`, if it holds a specified value (R21). -/
def State.outElem (s : State) (i : Nat) : Option Elem := Memory.read s.obuf i

/-- What the decoder reads: the latched command word and, if there is any input, its first byte (R80). -/
def State.fetchBytes (s : State) : List Byte :=
  s.lcmd :: (if 0 < s.ilen then [s.inByte 0] else [])

/-- Lay an instruction's bytes where the block fetches: latch the command word, put the selector byte into `IBUF[0]`,
and give the block the next turn. A `DTX` with no selector byte is fetched with an empty input (R80, R111). -/
def State.placeBytes (s : State) : List Byte → State
  | [] => s
  | [w] =>
    if w = 0x03#8 then { s with phase := .busy, delay := 0, lcmd := w, ilen := 0, ibuf := [] }
    else { s with phase := .busy, delay := 0, lcmd := w }
  | w :: sel :: _ =>
    { s with
      phase := .busy, delay := 0, lcmd := w
      ilen := max 1 s.ilen, ibuf := Memory.write s.ibuf 0 sel }

/-- A legal command runs: `IOVF` first (60_exceptions.md R174, R179), then the command's own function on the input. An
`ILEN` above `IBUF_CAP`, which no reachable state has, would read cells that do not exist (R40, log 9). -/
def runLegal (f : List Byte → Result) (s : State) : Host.Outcome State Fault Refusal :=
  if s.iovf then .next (s.raise .inputOverflow)
  else if s.ilen ≤ Config.ibufCap then .next (s.complete (f s.input))
  else .fault .inputBeyondCapacity

/-- The effect of `Reset` on the block: every piece of its state takes its reset value (R190, R191). The host's script,
what it has read and the count of free values are not the block's and stay (log 19). -/
def State.resetBlock (s : State) : State :=
  { State.reset with script := s.script, reads := s.reads, draws := s.draws }

end Sys2Proof.Machine
end

