-- ==== Sys2Proof/Machine/Operands.lean ====
section
/-! DEFINITION. The ways a command reads its input: `MemRead`, `MemReadLE`, the payload, the mark, code units. -/

namespace Sys2Proof.Machine

/-- Bytes as one unsigned number, the first byte in the highest bits (20_memory.md R42). -/
def bigEndian (bs : List Byte) : Nat := bs.foldl (fun acc b => acc * 256 + b.toNat) 0

/-- `MemRead(IBUF, i, m)`: the `m` bytes from index `i`, big-endian; `m = 0` gives 0 (R42). -/
def memRead (bs : List Byte) (i m : Nat) : Nat := bigEndian ((bs.drop i).take m)

/-- A 16-bit unit from two bytes in stream order: big-endian as `MemRead`, little-endian as `MemReadLE` (R42, R43). -/
def codeUnit (be : Bool) (b₀ b₁ : Byte) : CodeUnit := if be then b₀ ++ b₁ else b₁ ++ b₀

/-- Mark detection (41_text_codec.md R117): whether the units are big-endian, and the payload after the mark. -/
def splitMark : List Byte → Bool × List Byte
  | b₀ :: b₁ :: rest =>
    if b₀ = 0xFE#8 ∧ b₁ = 0xFF#8 then (true, rest)
    else if b₀ = 0xFF#8 ∧ b₁ = 0xFE#8 then (false, rest)
    else (false, b₀ :: b₁ :: rest)
  | pay => (false, pay)

/-- The code units of an even number of bytes, in order (R118). -/
def codeUnits (be : Bool) : List Byte → List CodeUnit
  | b₀ :: b₁ :: rest => codeUnit be b₀ b₁ :: codeUnits be rest
  | _ => []

/-- A high surrogate: 0xD800 to 0xDBFF (R120). -/
def isHigh (u : CodeUnit) : Bool := decide (0xD800 ≤ u.toNat) && decide (u.toNat ≤ 0xDBFF)

/-- A low surrogate: 0xDC00 to 0xDFFF (R120). -/
def isLow (u : CodeUnit) : Bool := decide (0xDC00 ≤ u.toNat) && decide (u.toNat ≤ 0xDFFF)

/-- The pair formula `0x10000 + ((h - 0xD800) << 10) + (l - 0xDC00)` (R121). -/
def pairElem (h l : CodeUnit) : Elem :=
  BitVec.ofNat 21 (0x10000 + (h.toNat - 0xD800) * 1024 + (l.toNat - 0xDC00))

/-- The scan (R119, R122): the elements in text order, or nothing when a surrogate is unpaired. -/
def scanUnits : List CodeUnit → Option (List Elem)
  | [] => some []
  | u :: us =>
    if isHigh u then
      match us with
      | [] => none
      | v :: vs => if isLow v then (scanUnits vs).map (pairElem u v :: ·) else none
    else if isLow u then none
    else (scanUnits us).map (u.setWidth 21 :: ·)

end Sys2Proof.Machine
end

