-- ==== Sys2Proof/Machine/Integer.lean ====
section
/-! DEFINITION. The Integer Codec commands `DSS` and `DBE` (40_integer_codec.md). -/

namespace Sys2Proof.Machine

/-- `ExecDSS` (R90): the low 7 bits of each of the last four bytes, under bits [3:0] of the byte before them if there is
one (R92, the spec's own choice D11; log 16); fewer than four bytes are rejected (R93). -/
def dssResult (bs : List Byte) : Result :=
  let n := bs.length
  if n < 4 then errorResult .shortInput
  else
    let w : Word := BitVec.ofNat 32 (memRead bs (n - 4) 4)
    let r28 : BitVec 28 :=
      w.extractLsb' 24 7 ++ w.extractLsb' 16 7 ++ w.extractLsb' 8 7 ++ w.extractLsb' 0 7
    let hi : BitVec 4 := if 4 < n then BitVec.ofNat 4 (memRead bs (n - 5) 1) else 0
    intResult (hi ++ r28)

/-- `ExecDBE` (R95): all the bytes as one big-endian number; more than four are rejected (R96). -/
def dbeResult (bs : List Byte) : Result :=
  if 4 < bs.length then errorResult .longInput
  else intResult (BitVec.ofNat 32 (memRead bs 0 bs.length))

/-- `DSS` (R90, R174). -/
def execDss (s : State) : Host.Outcome State Fault Refusal := runLegal dssResult s

/-- `DBE` (R95, R174). -/
def execDbe (s : State) : Host.Outcome State Fault Refusal := runLegal dbeResult s

/-- `Enc28` (R94), a test device: the four bytes of a 28-bit value, seven bits each, bit 7 clear. -/
def enc28 (v : BitVec 28) : List Byte :=
  [ (v.extractLsb' 21 7).setWidth 8, (v.extractLsb' 14 7).setWidth 8,
    (v.extractLsb' 7 7).setWidth 8, (v.extractLsb' 0 7).setWidth 8 ]

end Sys2Proof.Machine
end

