-- ==== Sys2Proof/Machine/Text.lean ====
section
/-! DEFINITION. The Text Codec command `DTX` and its ten selector rows (41_text_codec.md). -/

namespace Sys2Proof.Machine

/-- `ExecBytes` (R112): each payload byte is one element, zero-extended. -/
def bytesResult (k : Kind) (pay : List Byte) : Result := textResult k (pay.map (·.setWidth 21))

/-- `ExecUTF16` (R115): odd length first (R116), then the mark (R117), the units (R118) and the scan (R119, R122). -/
def utf16Result (pay : List Byte) : Result :=
  if pay.length % 2 = 1 then errorResult .oddLength
  else
    let (be, body) := splitMark pay
    match scanUnits (codeUnits be body) with
    | none => errorResult .unpairedSurrogate
    | some elems => textResult .scalar elems

/-- Any other selector: the empty string, and the payload is not looked at (R114). -/
def otherResult (_pay : List Byte) : Result := textResult .none []

/-- A text input is a selector byte and a payload (30_encoding.md R69); with no byte at all there is no selector, and
the command is rejected (R111). -/
def onPayload (f : List Byte → Result) : List Byte → Result
  | [] => errorResult .shortInput
  | _ :: pay => f pay

/-- `ExecDTX` (R110): the five-way dispatch on the selector. -/
def dtxResult : List Byte → Result
  | [] => errorResult .shortInput
  | sel :: pay =>
    if sel = 0x00#8 then bytesResult .bytechar pay
    else if sel = 0x03#8 then bytesResult .utf8raw pay
    else if sel = 0x01#8 ∨ sel = 0x02#8 then utf16Result pay
    else otherResult pay

/-- `DTX` (R110, R174). -/
def execDtx (s : State) : Host.Outcome State Fault Refusal := runLegal dtxResult s

/-- `DTX` with selector `0x00` (R112). -/
def execDtxSel0 (s : State) : Host.Outcome State Fault Refusal :=
  runLegal (onPayload (bytesResult .bytechar)) s

/-- `DTX` with selector `0x01` (R115). -/
def execDtxSel1 (s : State) : Host.Outcome State Fault Refusal := runLegal (onPayload utf16Result) s

/-- `DTX` with selector `0x02`, exactly as selector `0x01` (R72, R115). -/
def execDtxSel2 (s : State) : Host.Outcome State Fault Refusal := runLegal (onPayload utf16Result) s

/-- `DTX` with selector `0x03` (R113). -/
def execDtxSel3 (s : State) : Host.Outcome State Fault Refusal :=
  runLegal (onPayload (bytesResult .utf8raw)) s

/-- `DTX` with a selector `000001xx` (R114). -/
def execDtxOther04 (_sel : Byte) (s : State) : Host.Outcome State Fault Refusal :=
  runLegal (onPayload otherResult) s

/-- `DTX` with a selector `00001xxx` (R114). -/
def execDtxOther08 (_sel : Byte) (s : State) : Host.Outcome State Fault Refusal :=
  runLegal (onPayload otherResult) s

/-- `DTX` with a selector `0001xxxx` (R114). -/
def execDtxOther10 (_sel : Byte) (s : State) : Host.Outcome State Fault Refusal :=
  runLegal (onPayload otherResult) s

/-- `DTX` with a selector `001xxxxx` (R114). -/
def execDtxOther20 (_sel : Byte) (s : State) : Host.Outcome State Fault Refusal :=
  runLegal (onPayload otherResult) s

/-- `DTX` with a selector `01xxxxxx` (R114). -/
def execDtxOther40 (_sel : Byte) (s : State) : Host.Outcome State Fault Refusal :=
  runLegal (onPayload otherResult) s

/-- `DTX` with a selector `1xxxxxxx` (R114). -/
def execDtxOther80 (_sel : Byte) (s : State) : Host.Outcome State Fault Refusal :=
  runLegal (onPayload otherResult) s

/-- A number is a Unicode code point that is no surrogate (R19, kind `SCALAR`; R34). -/
def isScalar (c : Nat) : Bool := decide (c ≤ 0x10FFFF) && !(decide (0xD800 ≤ c) && decide (c ≤ 0xDFFF))

/-- The code units of one element of kind `SCALAR` (30_encoding.md R76), a test device like `Enc28`. -/
def unitsOfElem (e : Elem) : List CodeUnit :=
  if e.toNat < 0x10000 then [BitVec.ofNat 16 e.toNat]
  else [BitVec.ofNat 16 (0xD800 + (e.toNat - 0x10000) / 1024), BitVec.ofNat 16 (0xDC00 + (e.toNat - 0x10000) % 1024)]

/-- The two bytes of a code unit in stream order (R118), a test device. -/
def bytesOfUnit (be : Bool) (u : CodeUnit) : List Byte :=
  if be then [u.extractLsb' 8 8, u.extractLsb' 0 8] else [u.extractLsb' 0 8, u.extractLsb' 8 8]

/-- The UTF-16 bytes of a text, a test device. -/
def utf16Bytes (be : Bool) (text : List Elem) : List Byte :=
  (text.flatMap unitsOfElem).flatMap (bytesOfUnit be)

/-- The document's "unicode string" (R33): characters by their codes, code points, or bytes labelled UTF-8. -/
inductive TextValue where
  | empty
  | characters (codes : List Nat)
  | codePoints (codes : List Nat)
  | utf8 (bytes : List Byte)
  deriving DecidableEq, Repr

/-- `Text(OKIND, OBUF[0 .. OLEN-1])` (R33). -/
def textValue (k : Kind) (elems : List Elem) : TextValue :=
  match k with
  | .none => .empty
  | .bytechar => .characters (elems.map (·.toNat))
  | .utf8raw => .utf8 (elems.map (·.setWidth 8))
  | .scalar => .codePoints (elems.map (·.toNat))

/-- The text result of a completed `DTX` with `STATUS = OK` (R33); otherwise there is none. -/
def State.text (s : State) : Option TextValue :=
  if s.phase = .done ∧ s.lcmd = 0x03#8 ∧ s.status = .ok then
    ((List.range s.olen).mapM s.outElem).map (textValue s.okind)
  else none

end Sys2Proof.Machine
end

