-- ==== Sys2Proof/Machine/Dispatch.lean ====
section
/-! DEFINITION. The dispatch: one arm per instruction. -/

namespace Sys2Proof.Machine

def exec (i : Instr) (s : State) : Host.Outcome State Fault Refusal :=
  match i with
  | .dss => Sys2Proof.Machine.execDss s
  | .dbe => Sys2Proof.Machine.execDbe s
  | .dtx => Sys2Proof.Machine.execDtx s
  | .dtxSel0 => Sys2Proof.Machine.execDtxSel0 s
  | .dtxSel1 => Sys2Proof.Machine.execDtxSel1 s
  | .dtxSel2 => Sys2Proof.Machine.execDtxSel2 s
  | .dtxSel3 => Sys2Proof.Machine.execDtxSel3 s
  | .dtxOther04 sel => Sys2Proof.Machine.execDtxOther04 sel s
  | .dtxOther08 sel => Sys2Proof.Machine.execDtxOther08 sel s
  | .dtxOther10 sel => Sys2Proof.Machine.execDtxOther10 sel s
  | .dtxOther20 sel => Sys2Proof.Machine.execDtxOther20 sel s
  | .dtxOther40 sel => Sys2Proof.Machine.execDtxOther40 sel s
  | .dtxOther80 sel => Sys2Proof.Machine.execDtxOther80 sel s

end Sys2Proof.Machine
end

