-- ==== Sys2Proof/Machine/Block.lean ====
section
/-! DEFINITION. The block's only step, `Complete` (10_state.md R30), and the total function `Exec` it is described by. -/

namespace Sys2Proof.Machine

/-- `Complete`: decode the latched command and run it; a word that is no command completes with `ERR_ILLEGAL_CMD`,
before `IOVF` or any input byte is looked at (60_exceptions.md R173, R179). -/
def completeStep (s : State) : Host.Outcome State Fault Refusal :=
  match decode s.fetchBytes with
  | .ok i => exec i s
  | .error _ => .next (s.raise .illegalCmd)

/-- `Exec(cmd, iovf, n, bytes)` (R30), the spec's own order of tests. The block's clients are described by it, and an
obligation says that `completeStep` computes it. -/
def execResult (w : Byte) (iovf : Bool) (bs : List Byte) : Result :=
  if w ≠ 0x01#8 ∧ w ≠ 0x02#8 ∧ w ≠ 0x03#8 then errorResult .illegalCmd
  else if iovf then errorResult .inputOverflow
  else if w = 0x01#8 then dssResult bs
  else if w = 0x02#8 then dbeResult bs
  else dtxResult bs

/-- It is the block's turn: it is busy, and either the host has used up its turns or it has nothing left to do
(70_reset_and_hazards.md R194, R204; log 2). -/
def State.blockTurn (s : State) : Bool := s.phase == .busy && (s.delay == 0 || s.script.isEmpty)

end Sys2Proof.Machine
end

