-- ==== Sys2Proof/Machine/HostPort.lean ====
section
/-! DEFINITION. The host's transactions (10_state.md sections 2 and 4) and the platform's `Reset`. -/

namespace Sys2Proof.Machine

/-- The register of a number (R11); numbers above 10 are outside the interface (R35). -/
def regOfNumber : Nat → Option Reg
  | 0 => some .phase
  | 1 => some .cmd
  | 2 => some .inpush
  | 3 => some .inclr
  | 4 => some .ilen
  | 5 => some .flags
  | 6 => some .status
  | 7 => some .res
  | 8 => some .olen
  | 9 => some .okind
  | 10 => some .out
  | _ => none

/-- The number of a register (R11). -/
def Reg.number : Reg → Nat
  | .phase => 0
  | .cmd => 1
  | .inpush => 2
  | .inclr => 3
  | .ilen => 4
  | .flags => 5
  | .status => 6
  | .res => 7
  | .olen => 8
  | .okind => 9
  | .out => 10

/-- `IBUF[ILEN] <- b; ILEN <- ILEN + 1` (R24). -/
def State.appendByte (s : State) (b : Byte) : State :=
  { s with ibuf := Memory.write s.ibuf s.ilen b, ilen := s.ilen + 1 }

/-- `ILEN <- 0; IOVF <- 0` (R25). No byte is valid any more, and the spec leaves open whether they are erased: the model
lists none (U5, log 4). -/
def State.emptyInput (s : State) : State := { s with ibuf := [], ilen := 0, iovf := false }

/-- `LCMD <- w; PHASE <- BUSY` (R26); the block's step comes after a finite number of host turns, a free value (R194). -/
def State.accept (s : State) (w : Byte) : State :=
  { s with phase := .busy, lcmd := w, delay := Config.busyDelay s.draws, draws := s.draws + 1 }

/-- `HostWrite(reg, data)`: R24 (`INPUSH`), R25 (`INCLR`), R26 (`CMD`), R35 (the read-only registers). -/
def State.hostWrite (s : State) (r : Reg) (d : Byte) : State :=
  match r with
  | .inpush =>
    if s.phase = .busy then s.flagProtocolError
    else if s.ilen < Config.ibufCap then s.appendByte d
    else s.flagOverflow
  | .inclr => if s.phase = .busy then s.flagProtocolError else s.emptyInput
  | .cmd => if s.phase = .busy then s.flagProtocolError else s.accept d
  | .phase | .ilen | .flags | .status | .res | .olen | .okind | .out => s

/-- The value of a read where the spec specifies one: in every phase (R27), in `IDLE` and `DONE` (R28), and for `OUT`
also below `OLEN` only (R29). -/
def State.readValue (s : State) (r : Reg) (i : Nat) : Option Nat :=
  match r with
  | .phase => some s.phase.code.toNat
  | .cmd => some s.lcmd.toNat
  | .inpush | .inclr => none
  | .ilen => some s.ilen
  | .flags => some s.flags.toNat
  | .status => if s.phase = .busy then none else some s.status.code.toNat
  | .res => if s.phase = .busy then none else some s.res.toNat
  | .olen => if s.phase = .busy then none else some s.olen
  | .okind => if s.phase = .busy then none else some s.okind.code.toNat
  | .out => if s.phase = .busy ∨ s.olen ≤ i then none else (s.outElem i).map (·.toNat)

/-- The width of what a read can return (R11); a write-only register has none. -/
def Reg.readWidth : Reg → Option Nat
  | .phase => some 2
  | .cmd => some 8
  | .inpush => none
  | .inclr => none
  | .ilen => some Config.lenw
  | .flags => some 2
  | .status => some 3
  | .res => some 32
  | .olen => some Config.lenw
  | .okind => some 2
  | .out => some 21

/-- The next free value, within the register's width where it has one (U3, U4, U12; log 7). -/
def State.unspecifiedValue (s : State) (r : Reg) : Nat :=
  match r.readWidth with
  | some w => Config.freeRead s.draws % 2 ^ w
  | none => Config.freeRead s.draws

/-- Deliver a read's value to the host. -/
def State.deliver (s : State) (r : Reg) (i v : Nat) : State := { s with reads := ⟨r, i, v⟩ :: s.reads }

/-- One free value has been drawn. -/
def State.drawn (s : State) : State := { s with draws := s.draws + 1 }

/-- `HostRead(reg)`: the specified value, or an unspecified one; no effect on the block (R27 to R29, R35). -/
def State.hostRead (s : State) (r : Reg) (i : Nat) : State :=
  match s.readValue r i with
  | some v => s.deliver r i v
  | none => (s.deliver r i (s.unspecifiedValue r)).drawn

/-- The host has performed the first transaction of its script; a busy block is one host turn nearer its step. -/
def State.turn (s : State) : State := { s with script := s.script.tail, delay := s.delay - 1 }

/-- The host has polled `PHASE` without success and stays at its `WAIT` (R78, R204). -/
def State.poll (s : State) : State := { s with delay := s.delay - 1 }

/-- What the host last read from `OLEN`. -/
def lastOlen : List ReadEntry → Nat
  | [] => 0
  | e :: es => if e.reg = .olen then e.value else lastOlen es

/-- Put transactions before the rest of the script. -/
def State.expand (s : State) (ts : List Txn) : State := { s with script := ts ++ s.script }

/-- The host's or the platform's next step, the first transaction of the script. -/
def hostStep (t : Txn) (s : State) : Host.Outcome State Fault Refusal :=
  match t with
  | .write n d =>
    match regOfNumber n with
    | some r => .next (s.turn.hostWrite r d)
    | none => .refused (.noSuchRegister n)
  | .read n i =>
    match regOfNumber n with
    | some r => .next (s.turn.hostRead r i)
    | none => .refused (.noSuchRegister n)
  | .wait => if s.phase = .done then .next s.turn else .next s.poll
  | .readAll => .next (s.turn.expand ((List.range (lastOlen s.reads)).map (Txn.read 10 ·)))
  | .reset => .next s.turn.resetBlock

end Sys2Proof.Machine
end

