-- ==== Sys2Proof/Machine/Step.lean ====
section
/-! DEFINITION. One step of the block or of its host, and where a table word is laid for the block to fetch. -/

namespace Sys2Proof.Machine

/-- The block completes its command when it is its turn; otherwise the host performs its next transaction. With neither
a busy block nor a transaction left nothing is enabled: quiescence, not a stop (70_reset_and_hazards.md R206; log 14). -/
def step (s : State) : Host.Outcome State Fault Refusal :=
  if s.blockTurn then completeStep s
  else
    match s.script with
    | [] => .next s
    | t :: _ => hostStep t s

/-- `s` with a table row's word laid where the block fetches, and the block to move next (log 13). -/
def State.withFetchWord (s : State) (nbits w : Nat) : State := s.placeBytes (tableBytes nbits w)

end Sys2Proof.Machine
end

