-- ==== Sys2Proof/Machine/Client.lean ====
section
/-! DEFINITION. The software around the block (42_client_context.md): host-side functions that use the block's commands
through `Exec`. Nothing in the block depends on this file (00_scope.md R3, R140). -/

namespace Sys2Proof.Machine

/-- The document's error kinds (R160) and one for the two statuses that have no counterpart there (R184). -/
inductive ClientError where
  /-- The padding region has been reached; expected, not exceptional (R153, R160). -/
  | endOfFrames
  /-- The buffer lacks the V1 marker (R157). -/
  | noTag
  /-- Structurally malformed header or tag data, `Invalid` / `InvalidHeader` (R160). -/
  | invalid
  /-- The source returned fewer bytes than required (R142, R149). -/
  | readError
  /-- `ERR_ILLEGAL_CMD` or `ERR_INPUT_OVERFLOW`: a host bug or a capacity limit, reported as it is (R184). -/
  | hostFault (code : Status)
  deriving DecidableEq, Repr

/-- What a client reports for a status of the block (R160, R184). -/
def clientError : Status → Option ClientError
  | .ok => none
  | .illegalCmd => some (.hostFault .illegalCmd)
  | .inputOverflow => some (.hostFault .inputOverflow)
  | .shortInput | .longInput | .oddLength | .unpairedSurrogate => some .invalid

/-- "The client uses a command": `CLR`, push the bytes in order, write the command, wait, read (R140). Bytes beyond the
buffer's capacity are dropped and set `IOVF` (R24). An obligation ties this to a run of the machine. -/
def useBlock (w : Byte) (bs : List Byte) : Result :=
  execResult w (decide (Config.ibufCap < bs.length)) (bs.take Config.ibufCap)

/-- An integer result as a client takes it. -/
def useInteger (w : Byte) (bs : List Byte) : Except ClientError Nat :=
  let r := useBlock w bs
  match clientError r.status with
  | none => .ok r.res.toNat
  | some e => .error e

/-- "Read exactly `n` bytes; short or failed read → ReadError" (R142, R149). -/
def readExactly (n : Nat) (stream : List Byte) : Except ClientError (List Byte × List Byte) :=
  if n ≤ stream.length then .ok (stream.take n, stream.drop n) else .error .readError

/-- The V2 header (R147). -/
structure V2Header where
  major : Byte
  minor : Byte
  unsynchronized : Bool
  extended : Bool
  experimental : Bool
  footerPresent : Bool
  size : Nat
  deriving DecidableEq, Repr

/-- The V2 Header Decoder on the ten header bytes (R142 to R147): version bytes, flag bits 7 to 4, the size by `DSS`
on bytes 6 to 9. The literal at bytes 0 to 2 is not checked (R146). -/
def headerOfBytes (h : List Byte) : Except ClientError V2Header :=
  let flag := h.getD 5 0
  match useInteger 0x01#8 ((h.drop 6).take 4) with
  | .error e => .error e
  | .ok size => .ok ⟨h.getD 3 0, h.getD 4 0, flag.getLsbD 7, flag.getLsbD 6, flag.getLsbD 5, flag.getLsbD 4, size⟩

/-- The V2 Header Decoder on a byte source (R142): the header and the rest of the source. -/
def decodeHeader (stream : List Byte) : Except ClientError (V2Header × List Byte) :=
  match readExactly 10 stream with
  | .error e => .error e
  | .ok (h, rest) =>
    match headerOfBytes h with
    | .error e => .error e
    | .ok hdr => .ok (hdr, rest)

/-- A frame layout (R155): lengths, and the command the client uses for the size. -/
structure FrameLayout where
  headerLength : Nat
  idLength : Nat
  sizeLength : Nat
  sizeCommand : Byte
  deriving DecidableEq, Repr

/-- The closed, version-indexed table (R148), the size by `DBE` for versions 2 and 3 (R151, R152) and by `DSS` for
version 4 (R150). For any other major version there is no layout (U20). -/
def frameLayout (major : Byte) : Option FrameLayout :=
  if major = 2#8 then some ⟨6, 3, 3, 0x02#8⟩
  else if major = 3#8 then some ⟨10, 4, 4, 0x02#8⟩
  else if major = 4#8 then some ⟨10, 4, 4, 0x01#8⟩
  else none

/-- A V2 frame (R155): the identifier and the raw payload. -/
structure V2Frame where
  id : List Byte
  data : List Byte
  deriving DecidableEq, Repr

/-- `readFrame` (R149, R153): the frame and the rest of the source. -/
def readFrame (l : FrameLayout) (stream : List Byte) : Except ClientError (V2Frame × List Byte) :=
  match readExactly l.headerLength stream with
  | .error e => .error e
  | .ok (h, rest) =>
    let id := h.take l.idLength
    if id.head? = some 0x00#8 then .error .endOfFrames
    else
      match useInteger l.sizeCommand ((h.drop l.idLength).take l.sizeLength) with
      | .error e => .error e
      | .ok size =>
        match readExactly size rest with
        | .error e => .error e
        | .ok (data, rest') => .ok (⟨id, data⟩, rest')

/-- Repeated `readFrame` calls (R154): the frames, and what ended the sequence; `fuel` bounds the number of calls, and the
length of the source is always enough, since every frame takes its header's bytes. -/
def readFrames (l : FrameLayout) : Nat → List Byte → List V2Frame × Option ClientError
  | 0, _ => ([], none)
  | fuel + 1, stream =>
    match readFrame l stream with
    | .error e => ([], some e)
    | .ok (f, rest) =>
      let r := readFrames l fuel rest
      (f :: r.1, r.2)

/-- The caller's enumeration loop (R154, R160): `EndOfFrames` ends it and gives the frames; every other kind aborts the
tag, and the frames read before it are no result. The fuel is always enough, so the last case does not occur (obligation
FrameSequenceIsFinite). -/
def allFrames (l : FrameLayout) (stream : List Byte) : Except ClientError (List V2Frame) :=
  match readFrames l (stream.length + 1) stream with
  | (fs, some .endOfFrames) => .ok fs
  | (_, some e) => .error e
  | (_, none) => .error .readError

/-- The chunked format (R141): the header, the layout of its version, the frames. A version that has no layout gives the
header alone (U20, log 20). DESIGN CHOICE: the frames are read from all of the stream after the header; the header's `Size`,
which no step of the spec uses, does not bound it (log 26). -/
def decodeV2 (stream : List Byte) : Except ClientError (V2Header × Option (List V2Frame)) :=
  match decodeHeader stream with
  | .error e => .error e
  | .ok (hdr, rest) =>
    match frameLayout hdr.major with
    | none => .ok (hdr, none)
    | some l =>
      match allFrames l rest with
      | .error e => .error e
      | .ok fs => .ok (hdr, some fs)

/-- The V1 tag (R158); texts are their bytes, the genre is a resolved name. -/
structure V1Tag where
  title : List Byte
  artist : List Byte
  album : List Byte
  year : List Byte
  comment : List Byte
  track : Option String
  genre : String
  deriving DecidableEq, Repr

/-- Right-trim trailing null bytes (R157). -/
def trimNulls (bs : List Byte) : List Byte := (bs.reverse.dropWhile (· == 0x00#8)).reverse

/-- `bytes[a:b]`, half-open (00_scope.md R7). -/
def slice (bs : List Byte) (a b : Nat) : List Byte := (bs.drop a).take (b - a)

/-- The genre name of an index in the externally supplied table (R157, R159). -/
def genreName (table : List String) (index : Byte) : String := table.getD index.toNat "Unspecified"

/-- The V1 Tag Decoder (R157): exactly 128 bytes that begin with the marker "TAG", else `NoTag`. It uses neither codec. -/
def decodeV1 (genres : List String) (b : List Byte) : Except ClientError V1Tag :=
  if b.length ≠ 128 ∨ slice b 0 3 ≠ [0x54#8, 0x41#8, 0x47#8] then .error .noTag
  else
    let v11 : Bool := b.getD 125 0 == 0x00#8 && b.getD 126 0 != 0x00#8
    .ok
      { title := trimNulls (slice b 3 33)
        artist := trimNulls (slice b 33 63)
        album := trimNulls (slice b 63 93)
        year := trimNulls (slice b 93 97)
        comment := trimNulls (if v11 then slice b 97 125 else slice b 97 127)
        track := if v11 then some (Nat.repr (b.getD 126 0).toNat) else none
        genre := genreName genres (b.getD 127 0) }

/-- The fixed-size tail buffer of the trailer format (R141): the last 128 bytes of the stream, "the trailer of an audio
file" (R157). A stream that has fewer is a `ReadError` (R160; log 25). -/
def tailBuffer (stream : List Byte) : Except ClientError (List Byte) :=
  if 128 ≤ stream.length then .ok (stream.drop (stream.length - 128)) else .error .readError

/-- The trailer format (R141): the tail buffer, then the V1 decoder. -/
def decodeTrailer (genres : List String) (stream : List Byte) : Except ClientError V1Tag :=
  match tailBuffer stream with
  | .error e => .error e
  | .ok b => decodeV1 genres b

/-- The two formats a caller can ask for (R141; 00_scope.md section 8, "v1 / v2"). -/
inductive TagFormat where
  | trailer
  | chunked
  deriving DecidableEq, Repr

/-- What decoding a tag gives. -/
inductive Tag where
  | v1 (tag : V1Tag)
  | v2 (header : V2Header) (frames : Option (List V2Frame))
  deriving DecidableEq, Repr

/-- The overall control flow (R141): the caller names the format and supplies the byte stream. -/
def decodeTag (genres : List String) (format : TagFormat) (stream : List Byte) : Except ClientError Tag :=
  match format with
  | .trailer => (decodeTrailer genres stream).map .v1
  | .chunked => (decodeV2 stream).map fun p => .v2 p.1 p.2

end Sys2Proof.Machine
end

