-- ==== Sys2Proof/Machine/Script.lean ====
section
/-! DEFINITION. The host-script notation (30_encoding.md section 8). -/

namespace Sys2Proof.Machine

/-- A line of a host script (R78), and the last line of `TEXT` (R79). -/
inductive Line where
  | clr
  | push (b : Byte)
  | dss
  | dbe
  | dtx
  | cmd (w : Byte)
  | wait
  | rd (r : Reg)
  | rdOut (i : Nat)
  /-- `RD OUT[i]` for `i = 0 .. OLEN-1`. -/
  | rdOutAll
  deriving DecidableEq, Repr

/-- `RD reg` is written for the registers numbered 0, 1 and 4 to 9 only (R78). -/
def Line.wf : Line → Bool
  | .rd .inpush | .rd .inclr | .rd .out => false
  | _ => true

/-- The transaction of a line, as (register number, data) for a write (R78). -/
def Line.txn : Line → Txn
  | .clr => .write 3 0x00#8
  | .push b => .write 2 b
  | .dss => .write 1 0x01#8
  | .dbe => .write 1 0x02#8
  | .dtx => .write 1 0x03#8
  | .cmd w => .write 1 w
  | .wait => .wait
  | .rd r => .read r.number 0
  | .rdOut i => .read 10 i
  | .rdOutAll => .readAll

/-- `APPEND hh ... hh` (R79). -/
def appendLines (bs : List Byte) : List Line := bs.map .push

/-- `LOAD hh ... hh` (R79). -/
def loadLines (bs : List Byte) : List Line := .clr :: appendLines bs

/-- `RUN X` for `X` a command line (R79). -/
def runLines (x : Line) : List Line := [x, .wait]

/-- `SYNCHSAFE hh hh hh hh` (R79). -/
def synchsafeLines (b₀ b₁ b₂ b₃ : Byte) : List Line :=
  loadLines [b₀, b₁, b₂, b₃] ++ runLines .dss ++ [.rd .status, .rd .res]

/-- `TEXT hh ... hh` (R79). -/
def textLines (bs : List Byte) : List Line :=
  loadLines bs ++ runLines .dtx ++ [.rd .status, .rd .okind, .rd .olen, .rdOutAll]

/-- A script as the transactions it stands for. -/
def assemble (ls : List Line) : List Txn := ls.map Line.txn

end Sys2Proof.Machine
end

