-- ==== Sys2Proof/Safety.lean ====
section
/-! DEFINITION. What claims about the block are stated in: the invariant of every reachable state, when a run has ended
well, and what a legal command word is. -/

namespace Sys2Proof.Machine

/-- The three command words (30_encoding.md R62 to R65). -/
def legalCommand (w : Byte) : Bool := w == 0x01#8 || w == 0x02#8 || w == 0x03#8

/-- What every reachable state satisfies (10_state.md R34), with the contents of the two buffers: exactly the indices
below `ILEN` and below `OLEN` are listed (R14, R21; logs 4, 5), and an idle block shows its reset values (R12). -/
structure BlockInv (s : State) : Prop where
  input_listed : s.ibuf.map Prod.fst = List.range s.ilen
  output_listed : s.obuf.map Prod.fst = List.range s.olen
  ilen_le : s.ilen ≤ Config.ibufCap
  olen_le : s.olen ≤ Config.obufCap
  overflow_full : s.iovf = true → s.ilen = Config.ibufCap
  error_empty : s.phase ≠ .busy → s.status ≠ .ok → s.res = 0 ∧ s.okind = .none ∧ s.olen = 0
  none_empty : s.phase ≠ .busy → s.okind = .none → s.olen = 0
  bytes_small : s.phase ≠ .busy → s.okind = .bytechar ∨ s.okind = .utf8raw →
    ∀ i < s.olen, ∀ e, s.outElem i = some e → e.toNat ≤ 0xFF
  scalars_valid : s.phase ≠ .busy → s.okind = .scalar →
    ∀ i < s.olen, ∀ e, s.outElem i = some e → isScalar e.toNat = true
  text_no_integer : s.phase ≠ .busy → s.okind ≠ .none → s.res = 0
  idle_reset : s.phase = .idle → s.lcmd = 0x00#8 ∧ s.status = .ok ∧ s.res = 0 ∧ s.okind = .none ∧ s.olen = 0

/-- `t` is `s` after a command completed with these five results (R30): the result registers, the elements of `OBUF`, no
specified element beyond them (R21), and everything else as it was, every input cell among it. -/
structure Completes (s t : State) (status : Status) (res : Word) (kind : Kind) (elems : List Elem) : Prop where
  phase_done : t.phase = .done
  status_eq : t.status = status
  res_eq : t.res = res
  okind_eq : t.okind = kind
  olen_eq : t.olen = elems.length
  elems_eq : ∀ i (h : i < elems.length), t.outElem i = some elems[i]
  beyond_unspecified : ∀ i, elems.length ≤ i → t.outElem i = none
  lcmd_same : t.lcmd = s.lcmd
  input_same : ∀ i, Memory.read t.ibuf i = Memory.read s.ibuf i
  ilen_same : t.ilen = s.ilen
  iovf_same : t.iovf = s.iovf
  herr_same : t.herr = s.herr
  script_same : t.script = s.script
  reads_same : t.reads = s.reads
  delay_same : t.delay = s.delay
  draws_same : t.draws = s.draws

/-- The registers have the values of R191 and no cell of a buffer is specified. -/
structure AfterReset (t : State) : Prop where
  phase_idle : t.phase = .idle
  lcmd_zero : t.lcmd = 0x00#8
  ilen_zero : t.ilen = 0
  iovf_clear : t.iovf = false
  herr_clear : t.herr = false
  status_ok : t.status = .ok
  res_zero : t.res = 0
  okind_none : t.okind = .none
  olen_zero : t.olen = 0
  input_unspecified : ∀ a, Memory.read t.ibuf a = none
  output_unspecified : ∀ a, t.outElem a = none

/-- It is the host's turn, with this transaction next and these after it. -/
def State.hostTurn (s : State) (x : Txn) (rest : List Txn) : Prop := s.blockTurn = false ∧ s.script = x :: rest

/-- A transaction that names a register of the interface, or none (10_state.md R11, R35). -/
def Txn.known : Txn → Bool
  | .write n _ | .read n _ => decide (n ≤ 10)
  | .wait | .readAll | .reset => true

/-- An instruction as `DTX` reaches it: the selector row itself, or the command `DTX` on an input that begins with one of
these selectors (30_encoding.md R80). -/
def dtxWith (rows : List Instr) (sels : Byte → Bool) (s : State) (i : Instr) : Prop :=
  i ∈ rows ∨ (i = .dtx ∧ sels (s.inByte 0) = true)

/-- The six selector rows of "any other selector" (R74). -/
def isOther : Instr → Bool
  | .dtxOther04 _ | .dtxOther08 _ | .dtxOther10 _ | .dtxOther20 _ | .dtxOther40 _ | .dtxOther80 _ => true
  | _ => false

/-- The mark of a byte order (R75). -/
def markBytes (be : Bool) : List Byte := if be then [0xFE#8, 0xFF#8] else [0xFF#8, 0xFE#8]

/-- A text of kind `SCALAR`: code points, no surrogate among them (R19). -/
def scalarText (text : List Elem) : Prop := ∀ e ∈ text, isScalar e.toNat = true

/-- `k` steps from a state. -/
def runSteps (k : Nat) (s : State) : Host.Outcome State Fault Refusal := Host.Core.run Sys2Proof.core k s

/-- The end state of a run (70_reset_and_hazards.md R206): the state in which the script's last transaction has just been
performed, that is the first one with nothing left to perform. Nothing when that takes more steps, or when a transaction
is refused. -/
def endOfRun : Nat → State → Option State
  | 0, s => if s.script = [] then some s else none
  | k + 1, s =>
    if s.script = [] then some s
    else
      match step s with
      | .next t => endOfRun k t
      | .fault _ | .refused _ => none

/-- The run that begins in `s` ends in `t` (R206). -/
def RunEnds (s t : State) : Prop := ∃ k, endOfRun k s = some t

/-- It ends well: the block is not busy at that point, so every command was waited for (R206). -/
def RunEndsWell (s t : State) : Prop := RunEnds s t ∧ t.phase ≠ .busy

end Sys2Proof.Machine
end

