-- ==== Sys2Proof/Certificates/Slice0/Obligations.lean ====
section
/-! DEFINITION. The statements about the block that the provers settle. Each docstring names what of the spec it says. -/

open Sys2Proof Sys2Proof.Machine

/-! ### Encoding -/

/-- Every well-formed instruction decodes from its encoding; payload after a command word that takes none, or after a
selector byte, does not change it (30_encoding.md section 7). -/
def Obligations.DecodeInvertsEncode : Prop :=
  ∀ i : Instr, i.wf = true →
    decode (encode i) = .ok i ∧ (i ≠ .dtx → ∀ payload, decode (encode i ++ payload) = .ok i)

/-- Whatever the decoder accepts begins with the encoding of the well-formed instruction it answers. -/
def Obligations.DecodedBytesBeginWithEncoding : Prop :=
  ∀ bs i, decode bs = .ok i → i.wf = true ∧ ∃ payload, bs = encode i ++ payload

/-- Words written out from the spec's encodings (R62 to R64, R70 to R74) decode to the instructions they stand for. -/
def Obligations.SpecWordsDecode : Prop :=
  decode [0x01#8] = .ok .dss ∧ decode [0x02#8] = .ok .dbe ∧ decode [0x03#8] = .ok .dtx ∧
    decode [0x03#8, 0x00#8] = .ok .dtxSel0 ∧ decode [0x03#8, 0x01#8] = .ok .dtxSel1 ∧
    decode [0x03#8, 0x02#8] = .ok .dtxSel2 ∧ decode [0x03#8, 0x03#8] = .ok .dtxSel3 ∧
    decode [0x03#8, 0x05#8] = .ok (.dtxOther04 0x05#8) ∧ decode [0x03#8, 0xFF#8] = .ok (.dtxOther80 0xFF#8)

/-- The ten selector rows cover every byte, and no byte matches two of them (R80). -/
def Obligations.SelectorRowsPartitionBytes : Prop :=
  ∀ b : Byte, ((decodeSelector b).wf = true ∧ encode (decodeSelector b) = [0x03#8, b]) ∧
    ∀ i : Instr, i.wf = true → encode i = [0x03#8, b] → i = decodeSelector b

/-! ### The block's step -/

/-- When it is the block's turn and what it fetches decodes, the step is the instruction's meaning, and nothing is added
around it. What it fetches is the latched command word and the first input byte, if there is one. -/
def Obligations.StepRunsDecodedInstruction : Prop :=
  ∀ s i, s.phase = .busy → (s.delay = 0 ∨ s.script = []) →
    (s.ilen = 0 → decode [s.lcmd] = .ok i → step s = exec i s) ∧
    (0 < s.ilen → decode [s.lcmd, s.inByte 0] = .ok i → step s = exec i s)

/-- A table row's word, laid where the block fetches, is run by the very next step (the model's own, log 13). -/
def Obligations.FetchWordRunsTableInstruction : Prop :=
  ∀ (s : State) nbits w i, decodeTableWord nbits w = some i →
    step (s.withFetchWord nbits w) = exec i (s.withFetchWord nbits w)

/-- R30: the block's step writes what `Exec` computes from `LCMD`, `IOVF`, `ILEN` and the input bytes, and sets `DONE`;
nothing else changes. It is enabled in `BUSY` only. -/
def Obligations.CompleteWritesExec : Prop :=
  (∀ s : State, s.phase ≠ .busy → s.blockTurn = false) ∧
  ∀ s : State, s.phase = .busy → (s.delay = 0 ∨ s.script = []) → s.ilen ≤ Config.ibufCap →
    ∃ t, step s = .next t ∧
      Completes s t (execResult s.lcmd s.iovf s.input).status (execResult s.lcmd s.iovf s.input).res
        (execResult s.lcmd s.iovf s.input).kind (execResult s.lcmd s.iovf s.input).elems

/-- R173: a word other than 0x01, 0x02, 0x03 completes with `ERR_ILLEGAL_CMD` whatever the input, the overflow flag
among it. -/
def Obligations.IllegalCommandCompletes : Prop :=
  ∀ s : State, s.phase = .busy → (s.delay = 0 ∨ s.script = []) →
    s.lcmd ≠ 0x01#8 → s.lcmd ≠ 0x02#8 → s.lcmd ≠ 0x03#8 →
    ∃ t, step s = .next t ∧ Completes s t .illegalCmd 0 .none []

/-- R174: a legal command with `IOVF = 1` completes with `ERR_INPUT_OVERFLOW`; the command leaves the flag, so every legal
command after it gives the same error, and only `INCLR` or reset clears it. -/
def Obligations.OverflowFailsEveryCommand : Prop :=
  (∀ i s, s.iovf = true →
    ∃ t, exec i s = .next t ∧ Completes s t .inputOverflow 0 .none [] ∧
      ∀ j, ∃ u, exec j t = .next u ∧ Completes t u .inputOverflow 0 .none []) ∧
  ∀ s t, step s = .next t → s.iovf = true →
    t.iovf = true ∨ (s.phase ≠ .busy ∧ ∃ d rest, s.hostTurn (.write 3 d) rest) ∨ ∃ rest, s.hostTurn .reset rest

/-- `IOVF` is set exactly by a push into a full input buffer outside `BUSY` (R16, R24). -/
def Obligations.OverflowFlagSetByFullPush : Prop :=
  ∀ s t, step s = .next t → s.iovf = false →
    (t.iovf = true ↔ s.phase ≠ .busy ∧ Config.ibufCap ≤ s.ilen ∧ ∃ b rest, s.hostTurn (.write 2 b) rest)

/-- A command with `ILEN` above `IBUF_CAP`, which no reachable state has, stops (the model's own, log 9). -/
def Obligations.InputBeyondCapacityStops : Prop :=
  ∀ i s, s.iovf = false → Config.ibufCap < s.ilen → exec i s = .fault .inputBeyondCapacity

/-- R171: an error, of an instruction and of the block's whole step, leaves its code, zeroes, no specified element of
`OBUF` and `DONE`, and changes nothing else. -/
def Obligations.ErrorLeavesOnlyItsCode : Prop :=
  (∀ i s t, exec i s = .next t → t.status ≠ .ok → Completes s t t.status 0 .none []) ∧
  ∀ s t, s.blockTurn = true → step s = .next t → t.status ≠ .ok → Completes s t t.status 0 .none []

/-- What every instruction leaves unchanged when it answers a next state: the latched word, the flags, the length, the
host's side, every input cell; above `OLEN` no output cell is specified. -/
def Obligations.InstructionFrame : Prop :=
  ∀ i s t, exec i s = .next t →
    t.phase = .done ∧ t.lcmd = s.lcmd ∧ t.iovf = s.iovf ∧ t.herr = s.herr ∧ t.ilen = s.ilen ∧
    (∀ a, Memory.read t.ibuf a = Memory.read s.ibuf a) ∧ t.input = s.input ∧
    (∀ a, t.olen ≤ a → t.outElem a = none) ∧
    t.script = s.script ∧ t.reads = s.reads ∧ t.delay = s.delay ∧ t.draws = s.draws

/-- R5: what the block's step writes depends on `LCMD`, `ILEN`, `IOVF` and `IBUF[0 .. ILEN-1]` and on nothing else. -/
def Obligations.ResultsDependOnInputOnly : Prop :=
  ∀ s s' t, s.blockTurn = true → s'.blockTurn = true →
    s'.lcmd = s.lcmd → s'.ilen = s.ilen → s'.iovf = s.iovf → (∀ a, a < s.ilen → s'.inByte a = s.inByte a) →
    step s = .next t →
    ∃ t', step s' = .next t' ∧ t'.status = t.status ∧ t'.res = t.res ∧ t'.okind = t.okind ∧ t'.olen = t.olen ∧
      ∀ a, a < t.olen → t'.outElem a = t.outElem a

/-! ### Reading the input -/

/-- R42: `MemRead` is the big-endian sum, and no bytes give 0. -/
def Obligations.MemReadIsBigEndianSum : Prop :=
  ∀ (bs : List Byte) (i m : Nat), i + m ≤ bs.length →
    memRead bs i m = ∑ j ∈ Finset.range m, (bs.getD (i + j) 0).toNat * 2 ^ (8 * (m - 1 - j)) ∧ memRead bs i 0 = 0

/-- R118: an even number of bytes is cut into units of two bytes, in order, each in the byte order of the text. -/
def Obligations.CodeUnitsFollowByteOrder : Prop :=
  ∀ (be : Bool) (bs : List Byte) (m : Nat), bs.length = 2 * m →
    (codeUnits be bs).length = m ∧
    ∀ k, k < m →
      (codeUnits true bs)[k]? = some (bs.getD (2 * k) 0 ++ bs.getD (2 * k + 1) 0) ∧
      (codeUnits false bs)[k]? = some (bs.getD (2 * k + 1) 0 ++ bs.getD (2 * k) 0)

/-! ### The Integer Codec -/

/-- The value of `DSS` on four bytes or more: seven bits of each of the last four. The four high bits of a longer input
are bits [3:0] of the byte before them, which is the spec's own choice (D11, log 16). -/
def Obligations.DssValue : Prop :=
  ∀ s : State, s.iovf = false → 4 ≤ s.ilen → s.ilen ≤ Config.ibufCap →
    ∃ (v : Word) (t : State), exec .dss s = .next t ∧ Completes s t .ok v .none [] ∧
      v.toNat =
        (if s.ilen = 4 then 0 else ((s.inByte (s.ilen - 5)).toNat % 16) * 2 ^ 28) +
        ((s.inByte (s.ilen - 4)).toNat % 128) * 2 ^ 21 + ((s.inByte (s.ilen - 3)).toNat % 128) * 2 ^ 14 +
        ((s.inByte (s.ilen - 2)).toNat % 128) * 2 ^ 7 + (s.inByte (s.ilen - 1)).toNat % 128

/-- R91: bit 7 of each of the last four input bytes has no effect on the result of `DSS` and is no error; four bytes
`80` decode to 0 and four bytes `FF` to `0x0FFFFFFF`. -/
def Obligations.DssIgnoresBitSeven : Prop :=
  (∀ s s' : State, s.iovf = false → s'.iovf = false → 4 ≤ s.ilen → s.ilen ≤ Config.ibufCap → s'.ilen = s.ilen →
    (∀ a, a < s.ilen - 4 → s'.inByte a = s.inByte a) →
    (∀ a, s.ilen - 4 ≤ a → a < s.ilen → (s'.inByte a).toNat % 128 = (s.inByte a).toNat % 128) →
    ∃ v t t', exec .dss s = .next t ∧ exec .dss s' = .next t' ∧
      Completes s t .ok v .none [] ∧ Completes s' t' .ok v .none []) ∧
  (∀ s : State, s.iovf = false → s.input = [0x80#8, 0x80#8, 0x80#8, 0x80#8] →
    ∃ t, exec .dss s = .next t ∧ Completes s t .ok 0 .none []) ∧
  (∀ s : State, s.iovf = false → s.input = [0xFF#8, 0xFF#8, 0xFF#8, 0xFF#8] →
    ∃ t, exec .dss s = .next t ∧ Completes s t .ok 0x0FFFFFFF .none [])

/-- R93: fewer than four bytes complete with `ERR_SHORT_INPUT` and no result, whatever the bytes. -/
def Obligations.DssRejectsShortInput : Prop :=
  ∀ s : State, s.iovf = false → s.ilen < 4 →
    ∃ t, exec .dss s = .next t ∧ Completes s t .shortInput 0 .none []

/-- R94: `DSS` inverts `Enc28`; encoding the result of four bytes gives them back exactly when bit 7 of each is clear. -/
def Obligations.DssInvertsEnc28 : Prop :=
  (∀ (v : BitVec 28) (s : State), s.iovf = false → s.input = enc28 v →
    ∃ t, exec .dss s = .next t ∧ Completes s t .ok (v.setWidth 32) .none []) ∧
  ∀ s : State, s.iovf = false → s.ilen = 4 →
    ∃ t, exec .dss s = .next t ∧ t.status = .ok ∧
      (enc28 (t.res.setWidth 28) = s.input ↔ ∀ b ∈ s.input, b.toNat < 128)

/-- With exactly four bytes `DSS` returns a value below `2^28`. -/
def Obligations.FourByteSizeIsBelow28Bits : Prop :=
  ∀ s : State, s.iovf = false → s.ilen = 4 →
    ∃ v t, exec .dss s = .next t ∧ Completes s t .ok v .none [] ∧ v.toNat < 2 ^ 28

/-- R96: `DBE` decodes zero to four bytes as one big-endian number and rejects more than four. -/
def Obligations.DbeDecodesWholeInput : Prop :=
  ∀ s : State, s.iovf = false → s.ilen ≤ Config.ibufCap →
    (s.ilen ≤ 4 → ∃ (v : Word) (t : State), exec .dbe s = .next t ∧ Completes s t .ok v .none [] ∧
      v.toNat = ∑ j ∈ Finset.range s.ilen, (s.inByte j).toNat * 2 ^ (8 * (s.ilen - 1 - j))) ∧
    (4 < s.ilen → ∃ t, exec .dbe s = .next t ∧ Completes s t .longInput 0 .none [])

/-- On the same four bytes, all below `0x80`, `DBE` and `DSS` give these two numbers, which agree exactly when the
three high bytes are zero (the spec's derived rule R98). -/
def Obligations.IntegerCommandsAgreeOnSmallBytes : Prop :=
  ∀ (s : State) (a b c d : Byte), s.iovf = false → s.input = [a, b, c, d] →
    a.toNat < 128 → b.toNat < 128 → c.toNat < 128 → d.toNat < 128 →
    ∃ v w t u, exec .dbe s = .next t ∧ Completes s t .ok v .none [] ∧
      exec .dss s = .next u ∧ Completes s u .ok w .none [] ∧
      v.toNat = a.toNat * 2 ^ 24 + b.toNat * 2 ^ 16 + c.toNat * 2 ^ 8 + d.toNat ∧
      w.toNat = a.toNat * 2 ^ 21 + b.toNat * 2 ^ 14 + c.toNat * 2 ^ 7 + d.toNat ∧
      (v = w ↔ a = 0 ∧ b = 0 ∧ c = 0)

/-! ### The Text Codec -/

/-- R111: with no input byte there is no selector, and `DTX` completes with `ERR_SHORT_INPUT`. -/
def Obligations.DtxRejectsEmptyInput : Prop :=
  ∀ s : State, s.iovf = false → s.ilen = 0 →
    ∃ t, exec .dtx s = .next t ∧ Completes s t .shortInput 0 .none []

/-- `DTX` on a non-empty input is the row of its selector byte. -/
def Obligations.DtxRunsItsSelectorRow : Prop :=
  ∀ s : State, 0 < s.ilen → exec .dtx s = exec (decodeSelector (s.inByte 0)) s

/-- R112: selector 0 copies each payload byte, zero-extended, as one element of kind `BYTECHAR`. -/
def Obligations.Selector0CopiesPayload : Prop :=
  ∀ (s : State) (i : Instr), s.iovf = false → 0 < s.ilen → s.ilen ≤ Config.ibufCap →
    dtxWith [.dtxSel0] (fun b => b == 0x00#8) s i →
    ∃ t elems, exec i s = .next t ∧ Completes s t .ok 0 .bytechar elems ∧ elems.length = s.ilen - 1 ∧
      ∀ j, j < s.ilen - 1 → elems[j]? = some ((s.inByte (j + 1)).setWidth 21)

/-- R113: selector 3 copies each payload byte, zero-extended, as one element of kind `UTF8RAW`, and checks none. -/
def Obligations.Selector3CopiesPayload : Prop :=
  ∀ (s : State) (i : Instr), s.iovf = false → 0 < s.ilen → s.ilen ≤ Config.ibufCap →
    dtxWith [.dtxSel3] (fun b => b == 0x03#8) s i →
    ∃ t elems, exec i s = .next t ∧ Completes s t .ok 0 .utf8raw elems ∧ elems.length = s.ilen - 1 ∧
      ∀ j, j < s.ilen - 1 → elems[j]? = some ((s.inByte (j + 1)).setWidth 21)

/-- R114: any other selector gives the empty text and no error, whatever the payload. The six rows and `DTX`. -/
def Obligations.OtherSelectorsGiveEmptyText : Prop :=
  ∀ (s : State) (i : Instr), s.iovf = false → 0 < s.ilen → s.ilen ≤ Config.ibufCap →
    (isOther i = true ∨ (i = .dtx ∧ 4 ≤ (s.inByte 0).toNat)) →
    ∃ t, exec i s = .next t ∧ Completes s t .ok 0 .none []

/-- Selectors 1 and 2 decode every text of code points from its UTF-16 bytes: after a mark in the mark's byte order, and
little-endian where the payload begins with no mark (surrogate pairs as the spec's general knowledge gives them, G1, log
17). -/
def Obligations.Utf16TextDecodes : Prop :=
  ∀ (s : State) (i : Instr) (text : List Elem), s.iovf = false → s.ilen ≤ Config.ibufCap → scalarText text →
    dtxWith [.dtxSel1, .dtxSel2] (fun b => b == 0x01#8 || b == 0x02#8) s i →
    ((∃ sel be, s.input = sel :: (markBytes be ++ utf16Bytes be text)) ∨
      (∃ sel, s.input = sel :: utf16Bytes false text ∧
        ∀ be, (utf16Bytes false text).take 2 ≠ markBytes be)) →
    ∃ t, exec i s = .next t ∧ Completes s t .ok 0 .scalar text

/-- An even payload of selectors 1 and 2 completes with `OK` exactly when what follows the mark is the UTF-16 bytes of
some text of code points, and otherwise with `ERR_UNPAIRED_SURROGATE` (surrogates: G1, log 17). -/
def Obligations.Utf16SucceedsExactlyOnText : Prop :=
  ∀ (s : State) (i : Instr) (sel : Byte) (pay : List Byte), s.iovf = false → s.ilen ≤ Config.ibufCap →
    dtxWith [.dtxSel1, .dtxSel2] (fun b => b == 0x01#8 || b == 0x02#8) s i →
    s.input = sel :: pay → pay.length % 2 = 0 →
    ∃ t, exec i s = .next t ∧
      ((∃ text, scalarText text ∧ (splitMark pay).2 = utf16Bytes (splitMark pay).1 text ∧
          Completes s t .ok 0 .scalar text) ∨
        ((¬ ∃ text, scalarText text ∧ (splitMark pay).2 = utf16Bytes (splitMark pay).1 text) ∧
          Completes s t .unpairedSurrogate 0 .none []))

/-- The cases of R122: after any well-formed text, a high surrogate that is last, one not followed by a low surrogate, or a
low surrogate ends the command with `ERR_UNPAIRED_SURROGATE` and no element. The surrogate ranges are the spec's own, from
general knowledge (G1, log 17). -/
def Obligations.UnpairedSurrogateFails : Prop :=
  ∀ (s : State) (i : Instr) (sel : Byte) (pay : List Byte) (text : List Elem) (bad : List CodeUnit),
    s.iovf = false → s.ilen ≤ Config.ibufCap →
    dtxWith [.dtxSel1, .dtxSel2] (fun b => b == 0x01#8 || b == 0x02#8) s i →
    s.input = sel :: pay → pay.length % 2 = 0 → scalarText text →
    codeUnits (splitMark pay).1 (splitMark pay).2 = text.flatMap unitsOfElem ++ bad →
    ((∃ h, bad = [h] ∧ isHigh h = true) ∨
      (∃ h u rest, bad = h :: u :: rest ∧ isHigh h = true ∧ isLow u = false) ∨
      (∃ l rest, bad = l :: rest ∧ isLow l = true)) →
    ∃ t, exec i s = .next t ∧ Completes s t .unpairedSurrogate 0 .none []

/-- R116: an odd payload of selectors 1 and 2 completes with `ERR_ODD_LENGTH`, whatever it holds. -/
def Obligations.OddPayloadFails : Prop :=
  ∀ (s : State) (i : Instr), s.iovf = false → 0 < s.ilen → s.ilen ≤ Config.ibufCap → (s.ilen - 1) % 2 = 1 →
    dtxWith [.dtxSel1, .dtxSel2] (fun b => b == 0x01#8 || b == 0x02#8) s i →
    ∃ t, exec i s = .next t ∧ Completes s t .oddLength 0 .none []

/-- R72: selector 2 is treated exactly as selector 1, as a row and under `DTX`; so a payload with no mark, here of one
unit, is read little-endian. -/
def Obligations.Selector2IsSelector1 : Prop :=
  (∀ s, exec .dtxSel2 s = exec .dtxSel1 s) ∧
  (∀ s : State, 0 < s.ilen → s.inByte 0 = 0x02#8 → exec .dtx s = exec .dtxSel1 s) ∧
  ∀ (s : State) (i : Instr) (a b : Byte), s.iovf = false → dtxWith [.dtxSel2] (fun b => b == 0x02#8) s i →
    s.input = [0x02#8, a, b] → (∀ be, [a, b] ≠ markBytes be) → isHigh (b ++ a) = false → isLow (b ++ a) = false →
    ∃ t, exec i s = .next t ∧ Completes s t .ok 0 .scalar [(b ++ a).setWidth 21]

/-- The pair formula of R121, its range, and its form as concatenated bits: the spec's own, from general knowledge (G1,
log 17). -/
def Obligations.SurrogatePairFormula : Prop :=
  ∀ h l : CodeUnit, isHigh h = true → isLow l = true →
    (pairElem h l).toNat = 0x10000 + (h.toNat - 0xD800) * 2 ^ 10 + (l.toNat - 0xDC00) ∧
    (pairElem h l).toNat = 0x10000 + (h.extractLsb' 0 10 ++ l.extractLsb' 0 10 : BitVec 20).toNat ∧
    0x10000 ≤ (pairElem h l).toNat ∧ (pairElem h l).toNat ≤ 0x10FFFF

/-- A command's output is shorter than its input, at most half as long under selectors 1 and 2, and fits the
output buffer (the spec's derived rule R126). -/
def Obligations.OutputFitsItsBuffer : Prop :=
  ∀ i s t, exec i s = .next t → s.ilen ≤ Config.ibufCap →
    t.olen ≤ s.ilen - 1 ∧ t.olen ≤ Config.obufCap ∧
    (i = .dtxSel1 ∨ i = .dtxSel2 → t.olen ≤ (s.ilen - 1) / 2) ∧ (isOther i = true → t.olen = 0)

/-! ### The host's transactions -/

/-- R24: a push appends its byte; into a full buffer it is dropped and sets `IOVF`; in `BUSY` it is dropped and sets
`HERR`. Nothing else changes but the host's script. -/
def Obligations.PushAppendsByte : Prop :=
  ∀ (s : State) (b : Byte) (rest : List Txn), s.hostTurn (.write 2 b) rest →
    (s.phase = .busy → step s = .next { s with script := rest, delay := s.delay - 1, herr := true }) ∧
    (s.phase ≠ .busy → s.ilen < Config.ibufCap →
      ∃ m, step s = .next { s with script := rest, delay := s.delay - 1, ibuf := m, ilen := s.ilen + 1 } ∧
        Memory.read m s.ilen = some b ∧ ∀ a, a ≠ s.ilen → Memory.read m a = Memory.read s.ibuf a) ∧
    (s.phase ≠ .busy → Config.ibufCap ≤ s.ilen →
      step s = .next { s with script := rest, delay := s.delay - 1, iovf := true })

/-- R25: `INCLR`, whatever is written, clears `ILEN` and `IOVF`; in `BUSY` it is dropped and sets `HERR`. The result
registers and the phase do not change. -/
def Obligations.ClearEmptiesInput : Prop :=
  ∀ (s : State) (d : Byte) (rest : List Txn), s.hostTurn (.write 3 d) rest →
    (s.phase = .busy → step s = .next { s with script := rest, delay := s.delay - 1, herr := true }) ∧
    (s.phase ≠ .busy →
      ∃ m, step s = .next { s with script := rest, delay := s.delay - 1, ibuf := m, ilen := 0, iovf := false })

/-- A `CMD` write, whatever its word, latches it and starts the block; in `BUSY` it is dropped and sets `HERR`. How
long the block stays busy is a free value (log 2). -/
def Obligations.CommandWriteIsAccepted : Prop :=
  ∀ (s : State) (w : Byte) (rest : List Txn), s.hostTurn (.write 1 w) rest →
    (s.phase = .busy → step s = .next { s with script := rest, delay := s.delay - 1, herr := true }) ∧
    (s.phase ≠ .busy →
      ∃ d, step s = .next { s with script := rest, phase := .busy, lcmd := w, delay := d, draws := s.draws + 1 })

/-- A write to a read-only register is dropped without `HERR`; a read of a write-only register returns an unspecified value
and changes nothing of the block; a register number above 10 is refused (R35). That the unspecified value is the next free
value, uncut, and raises `draws` is the model's choice (log 7). -/
def Obligations.WrongDirectionAndUnknownRegisters : Prop :=
  (∀ (s : State) (n : Nat) (d : Byte) (rest : List Txn), s.hostTurn (.write n d) rest →
    (n = 0 ∨ (4 ≤ n ∧ n ≤ 10)) → step s = .next { s with script := rest, delay := s.delay - 1 }) ∧
  (∀ (s : State) (n i : Nat) (rest : List Txn), s.hostTurn (.read n i) rest → (n = 2 ∨ n = 3) →
    ∃ r, r.number = n ∧
      step s = .next
        { s with
          script := rest, delay := s.delay - 1, draws := s.draws + 1
          reads := ⟨r, i, Config.freeRead s.draws⟩ :: s.reads }) ∧
  (∀ (s : State) (n : Nat) (d : Byte) (rest : List Txn), s.hostTurn (.write n d) rest → 10 < n →
    step s = .refused (.noSuchRegister n)) ∧
  (∀ (s : State) (n i : Nat) (rest : List Txn), s.hostTurn (.read n i) rest → 10 < n →
    step s = .refused (.noSuchRegister n))

/-- R27: `PHASE`, `CMD`, `ILEN` and `FLAGS` return their backing state in every phase, with no side effect. -/
def Obligations.ReadsValidInEveryPhase : Prop :=
  ∀ (s : State) (n i : Nat) (rest : List Txn), s.hostTurn (.read n i) rest → (n = 0 ∨ n = 1 ∨ n = 4 ∨ n = 5) →
    ∃ r v, r.number = n ∧
      step s = .next { s with script := rest, delay := s.delay - 1, reads := ⟨r, i, v⟩ :: s.reads } ∧
      (n = 0 → v = match s.phase with | .idle => 0 | .busy => 1 | .done => 2) ∧
      (n = 1 → v = s.lcmd.toNat) ∧ (n = 4 → v = s.ilen) ∧
      (n = 5 → v = 2 * s.herr.toNat + s.iovf.toNat)

/-- `STATUS`, `RES`, `OLEN` and `OKIND` return their register in `IDLE` and `DONE`, and in `BUSY` an unspecified value; never
a side effect on the block (R28). That the unspecified value is the next free value, cut to the register's width, and
raises `draws` is the model's choice (log 7). -/
def Obligations.ResultReadsByPhase : Prop :=
  ∀ (s : State) (n i : Nat) (rest : List Txn), s.hostTurn (.read n i) rest → (6 ≤ n ∧ n ≤ 9) →
    ∃ r, r.number = n ∧
      (s.phase ≠ .busy →
        ∃ v, step s = .next { s with script := rest, delay := s.delay - 1, reads := ⟨r, i, v⟩ :: s.reads } ∧
          (n = 6 → v = match s.status with
            | .ok => 0 | .illegalCmd => 1 | .shortInput => 2 | .longInput => 3 | .oddLength => 4
            | .unpairedSurrogate => 5 | .inputOverflow => 6) ∧
          (n = 7 → v = s.res.toNat) ∧ (n = 8 → v = s.olen) ∧
          (n = 9 → v = match s.okind with | .none => 0 | .bytechar => 1 | .utf8raw => 2 | .scalar => 3)) ∧
      (s.phase = .busy →
        step s = .next
          { s with
            script := rest, delay := s.delay - 1, draws := s.draws + 1
            reads := ⟨r, i, Config.freeRead s.draws %
              2 ^ (if n = 6 then 3 else if n = 7 then 32 else if n = 8 then Config.lenw else 2)⟩ :: s.reads })

/-- `OUT` at an index below `OLEN` returns the element in `IDLE` and `DONE`, any number of times; at `OLEN` or beyond, or in
`BUSY`, the value is unspecified; never a side effect on the block (R29). That the unspecified value is the next free
value, cut to 21 bits, and raises `draws` is the model's choice (log 7). -/
def Obligations.OutReadsElements : Prop :=
  ∀ (s : State) (i : Nat) (rest : List Txn), s.hostTurn (.read 10 i) rest →
    (∀ e, s.phase ≠ .busy → i < s.olen → s.outElem i = some e →
      step s = .next { s with script := rest, delay := s.delay - 1, reads := ⟨.out, i, e.toNat⟩ :: s.reads }) ∧
    (s.phase = .busy ∨ s.olen ≤ i →
      step s = .next
        { s with
          script := rest, delay := s.delay - 1, draws := s.draws + 1
          reads := ⟨.out, i, Config.freeRead s.draws % 2 ^ 21⟩ :: s.reads })

/-- After the event `Reset`, in whatever phase it comes, and in the state the machine starts from, every register has its
reset value and no cell of a buffer is specified (R191). That what is not the block's (the host's script, what it has read,
the free values drawn) stays is the model's choice (log 19). -/
def Obligations.ResetSetsEveryRegister : Prop :=
  (∀ (s : State) (rest : List Txn), s.hostTurn .reset rest →
    ∃ t, step s = .next t ∧ AfterReset t ∧ t.script = rest ∧ t.reads = s.reads ∧ t.draws = s.draws) ∧
  AfterReset State.reset

/-- With no command in flight and no transaction left the block waits: a step changes nothing (R206, log 14). -/
def Obligations.QuiescentBlockWaits : Prop :=
  ∀ s : State, s.phase ≠ .busy → s.script = [] → step s = .next s

/-- `WAIT` goes on once `PHASE` is `DONE`, and until then leaves everything but the count of host turns as it is. That its
polls, which R78 makes reads of `PHASE`, are not recorded in `reads` is the model's choice (log 15), and that each is one
host turn too (log 2). -/
def Obligations.WaitPollsPhase : Prop :=
  ∀ (s : State) (rest : List Txn), s.hostTurn .wait rest →
    (s.phase = .done → step s = .next { s with script := rest, delay := s.delay - 1 }) ∧
    (s.phase ≠ .done → step s = .next { s with delay := s.delay - 1 })

/-! ### Rules of the whole machine -/

/-- Every step keeps the invariant of the reachable states (the spec's derived rule R34), from every state that has it. -/
def Obligations.StepKeepsInvariant : Prop :=
  ∀ s t, BlockInv s → step s = .next t → BlockInv t

/-- The reset state has the invariant. -/
def Obligations.ResetHasInvariant : Prop := BlockInv State.reset

/-- From a state with the invariant the block never stops, and the only refusal is of a host transaction that names
a register number above 10. -/
def Obligations.BlockNeverTraps : Prop :=
  ∀ s, BlockInv s →
    (∃ t, step s = .next t) ∨
    ∃ n rest, 10 < n ∧ step s = .refused (.noSuchRegister n) ∧
      ((∃ d, s.hostTurn (.write n d) rest) ∨ ∃ i, s.hostTurn (.read n i) rest)

/-- The only changes of `PHASE`: to `BUSY` by a `CMD` write in `IDLE` or `DONE`, from `BUSY` to `DONE` by the block's own
step, and to `IDLE` by reset. -/
def Obligations.PhaseChangesOnlyByRule : Prop :=
  ∀ s t, step s = .next t → t.phase ≠ s.phase →
    (s.phase ≠ .busy ∧ t.phase = .busy ∧ ∃ w rest, s.hostTurn (.write 1 w) rest) ∨
    (s.phase = .busy ∧ t.phase = .done ∧ s.blockTurn = true) ∨
    (t.phase = .idle ∧ ∃ rest, s.hostTurn .reset rest)

/-- R17: `HERR` is set exactly by a write of `INPUSH`, `INCLR` or `CMD` in `BUSY`, cleared only by reset, and changes no
result of any command. -/
def Obligations.ProtocolErrorIsSticky : Prop :=
  (∀ s t, step s = .next t → s.herr = true → t.herr = true ∨ ∃ rest, s.hostTurn .reset rest) ∧
  (∀ s t, step s = .next t → s.herr = false →
    (t.herr = true ↔ s.phase = .busy ∧ ∃ n d rest, (n = 1 ∨ n = 2 ∨ n = 3) ∧ s.hostTurn (.write n d) rest)) ∧
  (∀ i s b t, exec i s = .next t → exec i { s with herr := b } = .next { t with herr := b })

/-- `LCMD` changes only by an accepted `CMD` write, which latches its word, and by reset; `ILEN` only by an accepted push,
by `INCLR` and by reset. -/
def Obligations.CommandAndLengthHaveOneWriter : Prop :=
  ∀ s t, step s = .next t →
    (t.lcmd ≠ s.lcmd →
      (s.phase ≠ .busy ∧ ∃ rest, s.hostTurn (.write 1 t.lcmd) rest) ∨ ∃ rest, s.hostTurn .reset rest) ∧
    (t.ilen ≠ s.ilen →
      (s.phase ≠ .busy ∧ t.ilen = s.ilen + 1 ∧ ∃ b rest, s.hostTurn (.write 2 b) rest) ∨
      (s.phase ≠ .busy ∧ t.ilen = 0 ∧ ∃ d rest, s.hostTurn (.write 3 d) rest) ∨
      (t.ilen = 0 ∧ ∃ rest, s.hostTurn .reset rest))

/-- A busy block is busy for finitely many steps, whatever the host does with registers of the interface; a command
never hangs. -/
def Obligations.BusyIsFinite : Prop :=
  ∀ s, BlockInv s → s.phase = .busy → (∀ x ∈ s.script, x.known = true) →
    ∃ k t, k ≤ s.delay + 1 ∧ runSteps k s = .next t ∧ t.phase ≠ .busy

/-- From every idle or completed state, loading any bytes and running any command word reaches `DONE` with what `Exec`
computes from those bytes, truncated and flagged where they exceed the buffer, whatever came before. That `reads` is as
before, though `WAIT` polls, is the model's choice (log 15). -/
def Obligations.LoadAndRunComputesExec : Prop :=
  ∀ (s : State) (bs : List Byte) (w : Byte) (rest : List Txn), BlockInv s → s.phase ≠ .busy →
    s.script = assemble (loadLines bs ++ runLines (.cmd w)) ++ rest →
    ∃ k t, runSteps k s = .next t ∧ t.phase = .done ∧ t.script = rest ∧ t.lcmd = w ∧
      t.input = bs.take Config.ibufCap ∧ t.iovf = decide (Config.ibufCap < bs.length) ∧ t.herr = s.herr ∧
      t.reads = s.reads ∧
      t.status = (useBlock w bs).status ∧ t.res = (useBlock w bs).res ∧ t.okind = (useBlock w bs).kind ∧
      t.olen = (useBlock w bs).elems.length ∧
      ∀ a (h : a < (useBlock w bs).elems.length), t.outElem a = some (useBlock w bs).elems[a]

/-- The run of `TEXT` (R79) on bytes that fit the buffer ends well (R206) and has read back the status, the kind, the length
and every element, in order. That this is the exact list of reads, with no poll of `WAIT` in it and as many reads of `OUT`
as the `OLEN` read, is the model's choice (log 15). -/
def Obligations.TextScriptReadsBackText : Prop :=
  ∀ (s : State) (bs : List Byte), BlockInv s → s.phase ≠ .busy → bs.length ≤ Config.ibufCap →
    s.script = assemble (textLines bs) →
    ∃ t, RunEndsWell s t ∧
      t.reads.reverse = s.reads.reverse ++
        [⟨.status, 0, (dtxResult bs).status.code.toNat⟩, ⟨.okind, 0, (dtxResult bs).kind.code.toNat⟩,
          ⟨.olen, 0, (dtxResult bs).elems.length⟩] ++
        (dtxResult bs).elems.zipIdx.map (fun p => ⟨.out, p.2, p.1.toNat⟩)

/-! ### The software around the block -/

/-- R143, R144, R145: any ten header bytes decode, the versions and flag bits as they stand, the size below `2^28` from
the low seven bits of bytes 6 to 9. -/
def Obligations.HeaderDecodes : Prop :=
  ∀ h : List Byte, h.length = 10 →
    ∃ hdr, headerOfBytes h = .ok hdr ∧ hdr.major = h.getD 3 0 ∧ hdr.minor = h.getD 4 0 ∧
      hdr.unsynchronized = (h.getD 5 0).getLsbD 7 ∧ hdr.extended = (h.getD 5 0).getLsbD 6 ∧
      hdr.experimental = (h.getD 5 0).getLsbD 5 ∧ hdr.footerPresent = (h.getD 5 0).getLsbD 4 ∧
      hdr.size < 2 ^ 28 ∧
      hdr.size = ((h.getD 6 0).toNat % 128) * 2 ^ 21 + ((h.getD 7 0).toNat % 128) * 2 ^ 14 +
        ((h.getD 8 0).toNat % 128) * 2 ^ 7 + (h.getD 9 0).toNat % 128

/-- The header decoder takes exactly ten bytes of its source; a shorter source is a `ReadError` (R142). -/
def Obligations.HeaderTakesTenBytes : Prop :=
  ∀ stream : List Byte,
    (stream.length < 10 → decodeHeader stream = .error .readError) ∧
    (10 ≤ stream.length → ∃ hdr, headerOfBytes (stream.take 10) = .ok hdr ∧
      decodeHeader stream = .ok (hdr, stream.drop 10))

/-- R153: a frame header whose identifier begins with the null byte is the end of the frames, whatever follows. -/
def Obligations.NullIdentifierEndsFrames : Prop :=
  ∀ major l stream, frameLayout major = some l → l.headerLength ≤ stream.length → stream.head? = some 0x00#8 →
    readFrame l stream = .error .endOfFrames

/-- A frame that is read takes its header and exactly `Size` bytes from the source (R149 step by step). -/
def Obligations.FrameTakesHeaderAndSize : Prop :=
  ∀ major l stream f rest, frameLayout major = some l → readFrame l stream = .ok (f, rest) →
    f.id = stream.take l.idLength ∧ stream.drop l.headerLength = f.data ++ rest ∧ l.headerLength ≤ stream.length ∧
    useInteger l.sizeCommand ((stream.drop l.idLength).take l.sizeLength) = .ok f.data.length

/-- R154: repeated frame reads end, with `EndOfFrames` or a `ReadError`, before the source is longer than its calls. -/
def Obligations.FrameSequenceIsFinite : Prop :=
  ∀ major l stream, frameLayout major = some l →
    (readFrames l (stream.length + 1) stream).2 = some .endOfFrames ∨
    (readFrames l (stream.length + 1) stream).2 = some .readError

/-- The V1 decoder fails only with `NoTag`, exactly on buffers that are not 128 bytes beginning with "TAG"; an index at or
above the genre table's length is "Unspecified". -/
def Obligations.V1FailsOnlyWithoutTag : Prop :=
  (∀ genres b, (∃ tag, decodeV1 genres b = .ok tag) ↔ b.length = 128 ∧ b.take 3 = [0x54#8, 0x41#8, 0x47#8]) ∧
  (∀ genres b e, decodeV1 genres b = .error e → e = .noTag) ∧
  ∀ genres b tag, decodeV1 genres b = .ok tag → genres.length ≤ (b.getD 127 0).toNat → tag.genre = "Unspecified"
end

