-- ==== Sys2Proof/Laws/Client.lean ====
section
/-! SUPPORT. What the callers of the clients' decoders can be answered (42_client_context.md R141, R160). -/

namespace Sys2Proof.Machine

/-- The enumeration loop gives frames exactly when `EndOfFrames` ended it. -/
theorem allFrames_ok_iff {l : FrameLayout} {stream : List Byte} {fs : List V2Frame} :
    allFrames l stream = .ok fs ↔ readFrames l (stream.length + 1) stream = (fs, some .endOfFrames) := by
  unfold allFrames
  split
  · rename_i gs h
    rw [h]
    simp
  · rename_i gs e hne h
    rw [h]
    simp only [reduceCtorEq, Prod.mk.injEq, Option.some.injEq, false_iff, not_and]
    exact fun _ he => hne he
  · rename_i h
    rw [h]
    simp

/-- `EndOfFrames` is never an error of the whole tag. -/
theorem allFrames_error {l : FrameLayout} {stream : List Byte} {e : ClientError} (h : allFrames l stream = .error e) :
    e ≠ .endOfFrames := by
  unfold allFrames at h
  split at h
  · cases h
  · rename_i hne _
    cases h
    exact fun he => hne (by rw [he])
  · cases h; decide

/-- A chunked tag is decoded with its frames exactly when its header decodes, its version has a layout, and every frame
before the padding was read in full. -/
theorem decodeV2_frames_iff {stream : List Byte} {hdr : V2Header} {fs : List V2Frame} :
    decodeV2 stream = .ok (hdr, some fs) ↔
      ∃ rest l, decodeHeader stream = .ok (hdr, rest) ∧ frameLayout hdr.major = some l ∧ allFrames l rest = .ok fs := by
  unfold decodeV2
  constructor
  · intro h
    split at h
    · cases h
    · rename_i hdr' rest hd
      split at h
      · cases h
      · rename_i l hl
        split at h
        · cases h
        · rename_i gs hg
          cases h
          exact ⟨rest, l, hd, hl, hg⟩
  · rintro ⟨rest, l, hd, hl, hf⟩
    simp only [hd, hl, hf]

/-- The tail buffer has the V1 decoder's 128 bytes, and is the end of the stream. -/
theorem tailBuffer_ok {stream b : List Byte} (h : tailBuffer stream = .ok b) : b.length = 128 ∧ b <:+ stream := by
  unfold tailBuffer at h
  split at h
  · obtain rfl := Except.ok.inj h
    exact ⟨by rw [List.length_drop]; omega, List.drop_suffix _ _⟩
  · cases h

theorem tailBuffer_short {stream : List Byte} (h : stream.length < 128) : tailBuffer stream = .error .readError :=
  if_neg (by omega)

end Sys2Proof.Machine
end

