-- ==== Sys2Proof/Laws/Operands.lean ====
section
/-! SUPPORT. Big-endian reading as a fold that appends bytes, and the positions `DSS` and `DBE` read. -/

namespace Sys2Proof.Machine

@[simp] theorem bigEndian_nil : bigEndian [] = 0 := rfl

theorem bigEndian_append (bs : List Byte) (b : Byte) : bigEndian (bs ++ [b]) = bigEndian bs * 256 + b.toNat := by
  simp [bigEndian]

theorem bigEndian_lt (bs : List Byte) : bigEndian bs < 256 ^ bs.length := by
  induction bs using List.reverseRecOn with
  | nil => simp
  | append_singleton bs b ih =>
    rw [bigEndian_append, List.length_append, List.length_singleton, Nat.pow_succ]
    have := b.isLt
    omega

/-- Reading one byte more appends it. -/
theorem memRead_succ (bs : List Byte) (i m : Nat) (h : i + m < bs.length) :
    memRead bs i (m + 1) = memRead bs i m * 256 + (bs.getD (i + m) 0).toNat := by
  unfold memRead
  rw [List.take_add_one, List.getElem?_drop, List.getElem?_eq_getElem h, Option.toList_some, bigEndian_append,
    List.getD_eq_getElem _ _ h]

@[simp] theorem memRead_zero (bs : List Byte) (i : Nat) : memRead bs i 0 = 0 := by
  simp [memRead]

theorem memRead_lt (bs : List Byte) (i m : Nat) : memRead bs i m < 256 ^ m := by
  refine Nat.lt_of_lt_of_le (bigEndian_lt _) (Nat.pow_le_pow_right (by omega) ?_)
  simp

/-- The four-byte word `DSS` starts from. -/
theorem memRead_four (bs : List Byte) (i : Nat) (h : i + 4 ≤ bs.length) :
    memRead bs i 4 = (bs.getD i 0).toNat * 2 ^ 24 + (bs.getD (i + 1) 0).toNat * 2 ^ 16 +
      (bs.getD (i + 2) 0).toNat * 2 ^ 8 + (bs.getD (i + 3) 0).toNat := by
  rw [memRead_succ _ _ 3 (by omega), memRead_succ _ _ 2 (by omega), memRead_succ _ _ 1 (by omega),
    memRead_succ _ _ 0 (by omega), memRead_zero]
  simp only [Nat.add_zero]
  omega

theorem memRead_one (bs : List Byte) (i : Nat) (h : i < bs.length) : memRead bs i 1 = (bs.getD i 0).toNat := by
  rw [memRead_succ _ _ 0 (by omega), memRead_zero]
  simp

/-- The seven low bits of each byte of a word, concatenated. -/
theorem sevenBits_toNat (hi : BitVec 4) (w : Word) :
    (hi ++ (w.extractLsb' 24 7 ++ w.extractLsb' 16 7 ++ w.extractLsb' 8 7 ++ w.extractLsb' 0 7) : BitVec (4 + 28)).toNat =
      hi.toNat * 2 ^ 28 + (w.toNat / 2 ^ 24 % 128) * 2 ^ 21 + (w.toNat / 2 ^ 16 % 128) * 2 ^ 14 +
        (w.toNat / 2 ^ 8 % 128) * 2 ^ 7 + w.toNat % 128 := by
  simp only [BitVec.toNat_append, BitVec.extractLsb'_toNat, Nat.shiftRight_eq_div_pow, Nat.pow_zero, Nat.div_one]
  have h7 (a b : Nat) (hb : b < 2 ^ 7) : a <<< 7 ||| b = a * 2 ^ 7 + b := by
    rw [← Nat.shiftLeft_add_eq_or_of_lt hb, Nat.shiftLeft_eq]
  have h28 (a b : Nat) (hb : b < 2 ^ 28) : a <<< 28 ||| b = a * 2 ^ 28 + b := by
    rw [← Nat.shiftLeft_add_eq_or_of_lt hb, Nat.shiftLeft_eq]
  rw [h7 _ _ (by omega), h7 _ _ (by omega), h7 _ _ (by omega), h28 _ _ (by omega)]
  omega

/-- What `DSS` computes from four bytes or more, as a number. -/
theorem dssResult_value (bs : List Byte) (h : 4 ≤ bs.length) :
    ∃ v : Word, dssResult bs = intResult v ∧
      v.toNat =
        (if bs.length = 4 then 0 else ((bs.getD (bs.length - 5) 0).toNat % 16) * 2 ^ 28) +
        ((bs.getD (bs.length - 4) 0).toNat % 128) * 2 ^ 21 + ((bs.getD (bs.length - 3) 0).toNat % 128) * 2 ^ 14 +
        ((bs.getD (bs.length - 2) 0).toNat % 128) * 2 ^ 7 + (bs.getD (bs.length - 1) 0).toNat % 128 := by
  simp only [dssResult, if_neg (Nat.not_lt.mpr h)]
  refine ⟨_, rfl, ?_⟩
  rw [sevenBits_toNat, BitVec.toNat_ofNat, memRead_four _ _ (by omega)]
  have e₁ : bs.length - 4 + 1 = bs.length - 3 := by omega
  have e₂ : bs.length - 4 + 2 = bs.length - 2 := by omega
  have e₃ : bs.length - 4 + 3 = bs.length - 1 := by omega
  rw [e₁, e₂, e₃]
  have b₀ := (bs.getD (bs.length - 4) 0).isLt
  have b₁ := (bs.getD (bs.length - 3) 0).isLt
  have b₂ := (bs.getD (bs.length - 2) 0).isLt
  have b₃ := (bs.getD (bs.length - 1) 0).isLt
  by_cases h4 : bs.length = 4
  · rw [if_pos h4, if_neg (by omega)]
    simp only [BitVec.ofNat_eq_ofNat, BitVec.toNat_ofNat]
    omega
  · rw [if_neg h4, if_pos (by omega), memRead_one _ _ (by omega), BitVec.toNat_ofNat]
    omega

theorem dssResult_short (bs : List Byte) (h : bs.length < 4) : dssResult bs = errorResult .shortInput := by
  simp [dssResult, h]

theorem dbeResult_long (bs : List Byte) (h : 4 < bs.length) : dbeResult bs = errorResult .longInput := by
  simp [dbeResult, h]

/-- What `DBE` computes from at most four bytes, as a number. -/
theorem dbeResult_value (bs : List Byte) (h : bs.length ≤ 4) :
    ∃ v : Word, dbeResult bs = intResult v ∧ v.toNat = memRead bs 0 bs.length := by
  refine ⟨_, by rw [dbeResult, if_neg (Nat.not_lt.mpr h)], ?_⟩
  rw [BitVec.toNat_ofNat]
  refine Nat.mod_eq_of_lt (Nat.lt_of_lt_of_le (memRead_lt _ _ _) ?_)
  calc 256 ^ bs.length ≤ 256 ^ 4 := Nat.pow_le_pow_right (by omega) h
    _ = 2 ^ 32 := by norm_num

end Sys2Proof.Machine
end

