-- ==== Sys2Proof/Laws/Decode.lean ====
section
/-! SUPPORT. The decoder's two stages: what each accepts, and what the selector rows cover. -/

namespace Sys2Proof

theorem decodeCommand_ok {w : Byte} {i : Instr} (h : decodeCommand w = .ok i) :
    (w = 0x01#8 ∧ i = .dss) ∨ (w = 0x02#8 ∧ i = .dbe) ∨ (w = 0x03#8 ∧ i = .dtx) := by
  unfold decodeCommand at h
  split at h
  · simp_all
  · split at h
    · simp_all
    · split at h <;> simp_all

theorem decodeCommand_error {w : Byte} (h₁ : w ≠ 0x01#8) (h₂ : w ≠ 0x02#8) (h₃ : w ≠ 0x03#8) :
    decodeCommand w = .error (.illegalCommand w) := by
  rw [decodeCommand, if_neg h₁, if_neg h₂, if_neg h₃]

/-- The selector stage answers a well-formed row. -/
theorem decodeSelector_wf : ∀ sel : Byte, (decodeSelector sel).wf = true := by decide

/-- The selector stage keeps the whole byte. -/
theorem encode_decodeSelector : ∀ sel : Byte, encode (decodeSelector sel) = [0x03#8, sel] := by decide

theorem decodeSelector_other04 : ∀ sel : Byte, matchesRow 0xFC#8 0x04#8 sel = true → decodeSelector sel = .dtxOther04 sel := by
  decide

theorem decodeSelector_other08 : ∀ sel : Byte, matchesRow 0xF8#8 0x08#8 sel = true → decodeSelector sel = .dtxOther08 sel := by
  decide

theorem decodeSelector_other10 : ∀ sel : Byte, matchesRow 0xF0#8 0x10#8 sel = true → decodeSelector sel = .dtxOther10 sel := by
  decide

theorem decodeSelector_other20 : ∀ sel : Byte, matchesRow 0xE0#8 0x20#8 sel = true → decodeSelector sel = .dtxOther20 sel := by
  decide

theorem decodeSelector_other40 : ∀ sel : Byte, matchesRow 0xC0#8 0x40#8 sel = true → decodeSelector sel = .dtxOther40 sel := by
  decide

theorem decodeSelector_other80 : ∀ sel : Byte, matchesRow 0x80#8 0x80#8 sel = true → decodeSelector sel = .dtxOther80 sel := by
  decide

/-- A command word alone is stage 1. -/
@[simp] theorem decode_single (w : Byte) : decode [w] = decodeCommand w := rfl

/-- With a first input byte, `DTX` goes on to stage 2. -/
@[simp] theorem decode_dtx (sel : Byte) (rest : List Byte) : decode (0x03#8 :: sel :: rest) = .ok (decodeSelector sel) := rfl

/-- `DSS` and `DBE` do not look at the input to decode. -/
@[simp] theorem decode_dss (rest : List Byte) : decode (0x01#8 :: rest) = .ok .dss := by
  cases rest <;> rfl

@[simp] theorem decode_dbe (rest : List Byte) : decode (0x02#8 :: rest) = .ok .dbe := by
  cases rest <;> rfl

theorem decode_illegal {w : Byte} (h₁ : w ≠ 0x01#8) (h₂ : w ≠ 0x02#8) (h₃ : w ≠ 0x03#8) (rest : List Byte) :
    decode (w :: rest) = .error (.illegalCommand w) := by
  cases rest <;> simp [decode, decodeCommand_error h₁ h₂ h₃]

end Sys2Proof
end

