-- ==== Sys2Proof/Laws/Memory.lean ====
section
/-! SUPPORT. The laws of a buffer's cells: read after write, the canonical form, consecutive writes. -/

namespace Sys2Proof.Machine

variable {w : Nat}

@[simp] theorem Memory.read_nil (a : Nat) : Memory.read ([] : Memory w) a = none := rfl

theorem Memory.read_write_same (m : Memory w) (a : Nat) (x : BitVec w) :
    Memory.read (Memory.write m a x) a = some x := by
  induction m with
  | nil => simp [Memory.write, Memory.read]
  | cons p m ih =>
    obtain ⟨k, v⟩ := p
    simp only [Memory.write]
    split
    · simp [Memory.read]
    · split
      · simp [Memory.read]
      · rename_i h₁ h₂
        simp [Memory.read, ih, show ¬ k = a by omega]

theorem Memory.read_write_other (m : Memory w) {a b : Nat} (x : BitVec w) (h : b ≠ a) :
    Memory.read (Memory.write m a x) b = Memory.read m b := by
  induction m with
  | nil => simp [Memory.write, Memory.read, h.symm]
  | cons p m ih =>
    obtain ⟨k, v⟩ := p
    simp only [Memory.write]
    split
    · simp [Memory.read, h.symm]
    · split
      · rename_i _ h₂
        simp [Memory.read, h.symm, h₂ ▸ h.symm]
      · simp [Memory.read, ih]

theorem Memory.mem_write {m : Memory w} {a : Nat} {x : BitVec w} {p : Nat × BitVec w}
    (h : p ∈ Memory.write m a x) : p = (a, x) ∨ p ∈ m := by
  induction m with
  | nil => simpa [Memory.write] using h
  | cons q m ih =>
    obtain ⟨k, v⟩ := q
    simp only [Memory.write] at h
    split at h
    · simpa using h
    · split at h
      · simp only [List.mem_cons] at h ⊢
        tauto
      · simp only [List.mem_cons] at h ⊢
        rcases h with h | h
        · tauto
        · have := ih h
          tauto

/-- A write keeps the canonical form. -/
theorem Memory.write_wf {m : Memory w} (h : Memory.wf m) (a : Nat) (x : BitVec w) :
    Memory.wf (Memory.write m a x) := by
  induction m with
  | nil => simp [Memory.write, Memory.wf]
  | cons q m ih =>
    obtain ⟨k, v⟩ := q
    obtain ⟨hk, hm⟩ := List.pairwise_cons.mp h
    simp only [Memory.write]
    split
    · rename_i hak
      refine List.pairwise_cons.mpr ⟨fun p hp => ?_, h⟩
      rcases List.mem_cons.mp hp with rfl | hp
      · exact hak
      · exact Nat.lt_trans hak (hk p hp)
    · split
      · rename_i _ hak
        exact List.pairwise_cons.mpr ⟨fun p hp => by simpa [hak] using hk p hp, hm⟩
      · rename_i h₁ h₂
        refine List.pairwise_cons.mpr ⟨fun p hp => ?_, ih hm⟩
        rcases Memory.mem_write hp with rfl | hp
        · show k < a
          omega
        · exact hk p hp

/-- Consecutive writes keep the canonical form. -/
theorem Memory.writeAll_wf {m : Memory w} (h : Memory.wf m) (a : Nat) (xs : List (BitVec w)) :
    Memory.wf (Memory.writeAll m a xs) := by
  induction xs generalizing m a with
  | nil => exact h
  | cons x xs ih => exact ih (Memory.write_wf h a x) (a + 1)

/-- A write above every listed index appends a cell. -/
theorem Memory.write_above {m : Memory w} {a : Nat} (x : BitVec w) (h : ∀ p ∈ m, p.1 < a) :
    Memory.write m a x = m ++ [(a, x)] := by
  induction m with
  | nil => rfl
  | cons q m ih =>
    obtain ⟨k, v⟩ := q
    have hk : k < a := h (k, v) (by simp)
    simp [Memory.write, show ¬ a < k by omega, show ¬ a = k by omega,
      ih fun p hp => h p (by simp [hp])]

theorem Memory.below_of_range {m : Memory w} {n : Nat} (h : m.map Prod.fst = List.range n) :
    ∀ p ∈ m, p.1 < n := fun p hp => by
  have : p.1 ∈ List.range n := h ▸ List.mem_map_of_mem hp
  simpa using this

/-- Appending at the first free index lists the next index. -/
theorem Memory.write_range {m : Memory w} {n : Nat} (x : BitVec w) (h : m.map Prod.fst = List.range n) :
    (Memory.write m n x).map Prod.fst = List.range (n + 1) := by
  simp [Memory.write_above x (Memory.below_of_range h), h, List.range_succ]

theorem Memory.writeAll_range {m : Memory w} {n : Nat} (xs : List (BitVec w))
    (h : m.map Prod.fst = List.range n) :
    (Memory.writeAll m n xs).map Prod.fst = List.range (n + xs.length) := by
  induction xs generalizing m n with
  | nil => simpa [Memory.writeAll] using h
  | cons x xs ih =>
    have := ih (Memory.write_range x h)
    simpa [Memory.writeAll, Nat.add_assoc, Nat.add_comm 1] using this

theorem Memory.read_writeAll_below {m : Memory w} {a i : Nat} (xs : List (BitVec w)) (h : i < a) :
    Memory.read (Memory.writeAll m a xs) i = Memory.read m i := by
  induction xs generalizing m a with
  | nil => rfl
  | cons x xs ih =>
    rw [Memory.writeAll, ih (by omega), Memory.read_write_other _ _ (by omega)]

theorem Memory.read_writeAll {m : Memory w} {a i : Nat} (xs : List (BitVec w)) (h : i < xs.length) :
    Memory.read (Memory.writeAll m a xs) (a + i) = some xs[i] := by
  induction xs generalizing m a i with
  | nil => simp at h
  | cons x xs ih =>
    cases i with
    | zero => rw [Memory.writeAll, Memory.read_writeAll_below _ (by omega)]; exact Memory.read_write_same ..
    | succ i =>
      have := ih (m := Memory.write m a x) (a := a + 1) (i := i) (by simpa using h)
      rw [Memory.writeAll, show a + (i + 1) = a + 1 + i by omega, this]
      rfl

/-- Reading back what a command wrote to the output buffer. -/
theorem Memory.read_output (xs : List (BitVec w)) {i : Nat} (h : i < xs.length) :
    Memory.read (Memory.writeAll [] 0 xs) i = some xs[i] := by
  simpa using Memory.read_writeAll (m := []) (a := 0) xs h

/-- What a command wrote lists exactly the indices below its length. -/
theorem Memory.output_range (xs : List (BitVec w)) :
    (Memory.writeAll ([] : Memory w) 0 xs).map Prod.fst = List.range xs.length := by
  simpa using Memory.writeAll_range (m := ([] : Memory w)) (n := 0) xs rfl

/-- Indices listed as a range are in canonical form. -/
theorem Memory.wf_of_range {m : Memory w} {n : Nat} (h : m.map Prod.fst = List.range n) : Memory.wf m := by
  have hp : (m.map Prod.fst).Pairwise (· < ·) := h ▸ List.pairwise_lt_range
  exact List.pairwise_map.mp hp

/-- The buffers of the reset state are in canonical form. -/
theorem reset_memory_wf : Memory.wf State.reset.ibuf ∧ Memory.wf State.reset.obuf :=
  ⟨List.Pairwise.nil, List.Pairwise.nil⟩

/-- Laying an instruction's bytes for the fetch keeps the canonical form. -/
theorem placeBytes_wf {s : State} (h : Memory.wf s.ibuf) (bs : List Byte) : Memory.wf (s.placeBytes bs).ibuf := by
  match bs with
  | [] => exact h
  | [w] =>
    by_cases hw : w = 0x03#8
    · simp only [State.placeBytes, hw, if_true]
      exact List.Pairwise.nil
    · simpa only [State.placeBytes, hw, if_false] using h
  | w :: sel :: _ => exact Memory.write_wf h 0 sel

end Sys2Proof.Machine
end

