-- ==== Sys2Proof/Laws/State.lean ====
section
/-! SUPPORT. What each update of a state leaves in each field: one lemma per field and update, true by definition. -/

namespace Sys2Proof.Machine

@[simp] theorem State.flagProtocolError_phase (s : State) : s.flagProtocolError.phase = s.phase := rfl
@[simp] theorem State.flagProtocolError_lcmd (s : State) : s.flagProtocolError.lcmd = s.lcmd := rfl
@[simp] theorem State.flagProtocolError_ibuf (s : State) : s.flagProtocolError.ibuf = s.ibuf := rfl
@[simp] theorem State.flagProtocolError_ilen (s : State) : s.flagProtocolError.ilen = s.ilen := rfl
@[simp] theorem State.flagProtocolError_iovf (s : State) : s.flagProtocolError.iovf = s.iovf := rfl
@[simp] theorem State.flagProtocolError_herr (s : State) : s.flagProtocolError.herr = true := rfl
@[simp] theorem State.flagProtocolError_status (s : State) : s.flagProtocolError.status = s.status := rfl
@[simp] theorem State.flagProtocolError_res (s : State) : s.flagProtocolError.res = s.res := rfl
@[simp] theorem State.flagProtocolError_okind (s : State) : s.flagProtocolError.okind = s.okind := rfl
@[simp] theorem State.flagProtocolError_olen (s : State) : s.flagProtocolError.olen = s.olen := rfl
@[simp] theorem State.flagProtocolError_obuf (s : State) : s.flagProtocolError.obuf = s.obuf := rfl
@[simp] theorem State.flagProtocolError_script (s : State) : s.flagProtocolError.script = s.script := rfl
@[simp] theorem State.flagProtocolError_reads (s : State) : s.flagProtocolError.reads = s.reads := rfl
@[simp] theorem State.flagProtocolError_delay (s : State) : s.flagProtocolError.delay = s.delay := rfl
@[simp] theorem State.flagProtocolError_draws (s : State) : s.flagProtocolError.draws = s.draws := rfl

@[simp] theorem State.flagOverflow_phase (s : State) : s.flagOverflow.phase = s.phase := rfl
@[simp] theorem State.flagOverflow_lcmd (s : State) : s.flagOverflow.lcmd = s.lcmd := rfl
@[simp] theorem State.flagOverflow_ibuf (s : State) : s.flagOverflow.ibuf = s.ibuf := rfl
@[simp] theorem State.flagOverflow_ilen (s : State) : s.flagOverflow.ilen = s.ilen := rfl
@[simp] theorem State.flagOverflow_iovf (s : State) : s.flagOverflow.iovf = true := rfl
@[simp] theorem State.flagOverflow_herr (s : State) : s.flagOverflow.herr = s.herr := rfl
@[simp] theorem State.flagOverflow_status (s : State) : s.flagOverflow.status = s.status := rfl
@[simp] theorem State.flagOverflow_res (s : State) : s.flagOverflow.res = s.res := rfl
@[simp] theorem State.flagOverflow_okind (s : State) : s.flagOverflow.okind = s.okind := rfl
@[simp] theorem State.flagOverflow_olen (s : State) : s.flagOverflow.olen = s.olen := rfl
@[simp] theorem State.flagOverflow_obuf (s : State) : s.flagOverflow.obuf = s.obuf := rfl
@[simp] theorem State.flagOverflow_script (s : State) : s.flagOverflow.script = s.script := rfl
@[simp] theorem State.flagOverflow_reads (s : State) : s.flagOverflow.reads = s.reads := rfl
@[simp] theorem State.flagOverflow_delay (s : State) : s.flagOverflow.delay = s.delay := rfl
@[simp] theorem State.flagOverflow_draws (s : State) : s.flagOverflow.draws = s.draws := rfl

@[simp] theorem State.complete_phase (s : State) (r : Result) : (s.complete r).phase = .done := rfl
@[simp] theorem State.complete_lcmd (s : State) (r : Result) : (s.complete r).lcmd = s.lcmd := rfl
@[simp] theorem State.complete_ibuf (s : State) (r : Result) : (s.complete r).ibuf = s.ibuf := rfl
@[simp] theorem State.complete_ilen (s : State) (r : Result) : (s.complete r).ilen = s.ilen := rfl
@[simp] theorem State.complete_iovf (s : State) (r : Result) : (s.complete r).iovf = s.iovf := rfl
@[simp] theorem State.complete_herr (s : State) (r : Result) : (s.complete r).herr = s.herr := rfl
@[simp] theorem State.complete_status (s : State) (r : Result) : (s.complete r).status = r.status := rfl
@[simp] theorem State.complete_res (s : State) (r : Result) : (s.complete r).res = r.res := rfl
@[simp] theorem State.complete_okind (s : State) (r : Result) : (s.complete r).okind = r.kind := rfl
@[simp] theorem State.complete_olen (s : State) (r : Result) : (s.complete r).olen = r.elems.length := rfl
@[simp] theorem State.complete_obuf (s : State) (r : Result) : (s.complete r).obuf = Memory.writeAll [] 0 r.elems := rfl
@[simp] theorem State.complete_script (s : State) (r : Result) : (s.complete r).script = s.script := rfl
@[simp] theorem State.complete_reads (s : State) (r : Result) : (s.complete r).reads = s.reads := rfl
@[simp] theorem State.complete_delay (s : State) (r : Result) : (s.complete r).delay = s.delay := rfl
@[simp] theorem State.complete_draws (s : State) (r : Result) : (s.complete r).draws = s.draws := rfl

@[simp] theorem State.raise_phase (s : State) (c : Status) : (s.raise c).phase = .done := rfl
@[simp] theorem State.raise_lcmd (s : State) (c : Status) : (s.raise c).lcmd = s.lcmd := rfl
@[simp] theorem State.raise_ibuf (s : State) (c : Status) : (s.raise c).ibuf = s.ibuf := rfl
@[simp] theorem State.raise_ilen (s : State) (c : Status) : (s.raise c).ilen = s.ilen := rfl
@[simp] theorem State.raise_iovf (s : State) (c : Status) : (s.raise c).iovf = s.iovf := rfl
@[simp] theorem State.raise_herr (s : State) (c : Status) : (s.raise c).herr = s.herr := rfl
@[simp] theorem State.raise_status (s : State) (c : Status) : (s.raise c).status = c := rfl
@[simp] theorem State.raise_res (s : State) (c : Status) : (s.raise c).res = 0 := rfl
@[simp] theorem State.raise_okind (s : State) (c : Status) : (s.raise c).okind = .none := rfl
@[simp] theorem State.raise_olen (s : State) (c : Status) : (s.raise c).olen = 0 := rfl
@[simp] theorem State.raise_obuf (s : State) (c : Status) : (s.raise c).obuf = [] := rfl
@[simp] theorem State.raise_script (s : State) (c : Status) : (s.raise c).script = s.script := rfl
@[simp] theorem State.raise_reads (s : State) (c : Status) : (s.raise c).reads = s.reads := rfl
@[simp] theorem State.raise_delay (s : State) (c : Status) : (s.raise c).delay = s.delay := rfl
@[simp] theorem State.raise_draws (s : State) (c : Status) : (s.raise c).draws = s.draws := rfl

@[simp] theorem State.resetBlock_phase (s : State) : s.resetBlock.phase = .idle := rfl
@[simp] theorem State.resetBlock_lcmd (s : State) : s.resetBlock.lcmd = 0x00#8 := rfl
@[simp] theorem State.resetBlock_ibuf (s : State) : s.resetBlock.ibuf = [] := rfl
@[simp] theorem State.resetBlock_ilen (s : State) : s.resetBlock.ilen = 0 := rfl
@[simp] theorem State.resetBlock_iovf (s : State) : s.resetBlock.iovf = false := rfl
@[simp] theorem State.resetBlock_herr (s : State) : s.resetBlock.herr = false := rfl
@[simp] theorem State.resetBlock_status (s : State) : s.resetBlock.status = .ok := rfl
@[simp] theorem State.resetBlock_res (s : State) : s.resetBlock.res = 0 := rfl
@[simp] theorem State.resetBlock_okind (s : State) : s.resetBlock.okind = .none := rfl
@[simp] theorem State.resetBlock_olen (s : State) : s.resetBlock.olen = 0 := rfl
@[simp] theorem State.resetBlock_obuf (s : State) : s.resetBlock.obuf = [] := rfl
@[simp] theorem State.resetBlock_script (s : State) : s.resetBlock.script = s.script := rfl
@[simp] theorem State.resetBlock_reads (s : State) : s.resetBlock.reads = s.reads := rfl
@[simp] theorem State.resetBlock_delay (s : State) : s.resetBlock.delay = 0 := rfl
@[simp] theorem State.resetBlock_draws (s : State) : s.resetBlock.draws = s.draws := rfl

@[simp] theorem State.appendByte_phase (s : State) (b : Byte) : (s.appendByte b).phase = s.phase := rfl
@[simp] theorem State.appendByte_lcmd (s : State) (b : Byte) : (s.appendByte b).lcmd = s.lcmd := rfl
@[simp] theorem State.appendByte_ibuf (s : State) (b : Byte) : (s.appendByte b).ibuf = Memory.write s.ibuf s.ilen b := rfl
@[simp] theorem State.appendByte_ilen (s : State) (b : Byte) : (s.appendByte b).ilen = s.ilen + 1 := rfl
@[simp] theorem State.appendByte_iovf (s : State) (b : Byte) : (s.appendByte b).iovf = s.iovf := rfl
@[simp] theorem State.appendByte_herr (s : State) (b : Byte) : (s.appendByte b).herr = s.herr := rfl
@[simp] theorem State.appendByte_status (s : State) (b : Byte) : (s.appendByte b).status = s.status := rfl
@[simp] theorem State.appendByte_res (s : State) (b : Byte) : (s.appendByte b).res = s.res := rfl
@[simp] theorem State.appendByte_okind (s : State) (b : Byte) : (s.appendByte b).okind = s.okind := rfl
@[simp] theorem State.appendByte_olen (s : State) (b : Byte) : (s.appendByte b).olen = s.olen := rfl
@[simp] theorem State.appendByte_obuf (s : State) (b : Byte) : (s.appendByte b).obuf = s.obuf := rfl
@[simp] theorem State.appendByte_script (s : State) (b : Byte) : (s.appendByte b).script = s.script := rfl
@[simp] theorem State.appendByte_reads (s : State) (b : Byte) : (s.appendByte b).reads = s.reads := rfl
@[simp] theorem State.appendByte_delay (s : State) (b : Byte) : (s.appendByte b).delay = s.delay := rfl
@[simp] theorem State.appendByte_draws (s : State) (b : Byte) : (s.appendByte b).draws = s.draws := rfl

@[simp] theorem State.emptyInput_phase (s : State) : s.emptyInput.phase = s.phase := rfl
@[simp] theorem State.emptyInput_lcmd (s : State) : s.emptyInput.lcmd = s.lcmd := rfl
@[simp] theorem State.emptyInput_ibuf (s : State) : s.emptyInput.ibuf = [] := rfl
@[simp] theorem State.emptyInput_ilen (s : State) : s.emptyInput.ilen = 0 := rfl
@[simp] theorem State.emptyInput_iovf (s : State) : s.emptyInput.iovf = false := rfl
@[simp] theorem State.emptyInput_herr (s : State) : s.emptyInput.herr = s.herr := rfl
@[simp] theorem State.emptyInput_status (s : State) : s.emptyInput.status = s.status := rfl
@[simp] theorem State.emptyInput_res (s : State) : s.emptyInput.res = s.res := rfl
@[simp] theorem State.emptyInput_okind (s : State) : s.emptyInput.okind = s.okind := rfl
@[simp] theorem State.emptyInput_olen (s : State) : s.emptyInput.olen = s.olen := rfl
@[simp] theorem State.emptyInput_obuf (s : State) : s.emptyInput.obuf = s.obuf := rfl
@[simp] theorem State.emptyInput_script (s : State) : s.emptyInput.script = s.script := rfl
@[simp] theorem State.emptyInput_reads (s : State) : s.emptyInput.reads = s.reads := rfl
@[simp] theorem State.emptyInput_delay (s : State) : s.emptyInput.delay = s.delay := rfl
@[simp] theorem State.emptyInput_draws (s : State) : s.emptyInput.draws = s.draws := rfl

@[simp] theorem State.accept_phase (s : State) (w : Byte) : (s.accept w).phase = .busy := rfl
@[simp] theorem State.accept_lcmd (s : State) (w : Byte) : (s.accept w).lcmd = w := rfl
@[simp] theorem State.accept_ibuf (s : State) (w : Byte) : (s.accept w).ibuf = s.ibuf := rfl
@[simp] theorem State.accept_ilen (s : State) (w : Byte) : (s.accept w).ilen = s.ilen := rfl
@[simp] theorem State.accept_iovf (s : State) (w : Byte) : (s.accept w).iovf = s.iovf := rfl
@[simp] theorem State.accept_herr (s : State) (w : Byte) : (s.accept w).herr = s.herr := rfl
@[simp] theorem State.accept_status (s : State) (w : Byte) : (s.accept w).status = s.status := rfl
@[simp] theorem State.accept_res (s : State) (w : Byte) : (s.accept w).res = s.res := rfl
@[simp] theorem State.accept_okind (s : State) (w : Byte) : (s.accept w).okind = s.okind := rfl
@[simp] theorem State.accept_olen (s : State) (w : Byte) : (s.accept w).olen = s.olen := rfl
@[simp] theorem State.accept_obuf (s : State) (w : Byte) : (s.accept w).obuf = s.obuf := rfl
@[simp] theorem State.accept_script (s : State) (w : Byte) : (s.accept w).script = s.script := rfl
@[simp] theorem State.accept_reads (s : State) (w : Byte) : (s.accept w).reads = s.reads := rfl
@[simp] theorem State.accept_delay (s : State) (w : Byte) : (s.accept w).delay = Config.busyDelay s.draws := rfl
@[simp] theorem State.accept_draws (s : State) (w : Byte) : (s.accept w).draws = s.draws + 1 := rfl

@[simp] theorem State.deliver_phase (s : State) (r : Reg) (i v : Nat) : (s.deliver r i v).phase = s.phase := rfl
@[simp] theorem State.deliver_lcmd (s : State) (r : Reg) (i v : Nat) : (s.deliver r i v).lcmd = s.lcmd := rfl
@[simp] theorem State.deliver_ibuf (s : State) (r : Reg) (i v : Nat) : (s.deliver r i v).ibuf = s.ibuf := rfl
@[simp] theorem State.deliver_ilen (s : State) (r : Reg) (i v : Nat) : (s.deliver r i v).ilen = s.ilen := rfl
@[simp] theorem State.deliver_iovf (s : State) (r : Reg) (i v : Nat) : (s.deliver r i v).iovf = s.iovf := rfl
@[simp] theorem State.deliver_herr (s : State) (r : Reg) (i v : Nat) : (s.deliver r i v).herr = s.herr := rfl
@[simp] theorem State.deliver_status (s : State) (r : Reg) (i v : Nat) : (s.deliver r i v).status = s.status := rfl
@[simp] theorem State.deliver_res (s : State) (r : Reg) (i v : Nat) : (s.deliver r i v).res = s.res := rfl
@[simp] theorem State.deliver_okind (s : State) (r : Reg) (i v : Nat) : (s.deliver r i v).okind = s.okind := rfl
@[simp] theorem State.deliver_olen (s : State) (r : Reg) (i v : Nat) : (s.deliver r i v).olen = s.olen := rfl
@[simp] theorem State.deliver_obuf (s : State) (r : Reg) (i v : Nat) : (s.deliver r i v).obuf = s.obuf := rfl
@[simp] theorem State.deliver_script (s : State) (r : Reg) (i v : Nat) : (s.deliver r i v).script = s.script := rfl
@[simp] theorem State.deliver_reads (s : State) (r : Reg) (i v : Nat) : (s.deliver r i v).reads = ⟨r, i, v⟩ :: s.reads := rfl
@[simp] theorem State.deliver_delay (s : State) (r : Reg) (i v : Nat) : (s.deliver r i v).delay = s.delay := rfl
@[simp] theorem State.deliver_draws (s : State) (r : Reg) (i v : Nat) : (s.deliver r i v).draws = s.draws := rfl

@[simp] theorem State.drawn_phase (s : State) : s.drawn.phase = s.phase := rfl
@[simp] theorem State.drawn_lcmd (s : State) : s.drawn.lcmd = s.lcmd := rfl
@[simp] theorem State.drawn_ibuf (s : State) : s.drawn.ibuf = s.ibuf := rfl
@[simp] theorem State.drawn_ilen (s : State) : s.drawn.ilen = s.ilen := rfl
@[simp] theorem State.drawn_iovf (s : State) : s.drawn.iovf = s.iovf := rfl
@[simp] theorem State.drawn_herr (s : State) : s.drawn.herr = s.herr := rfl
@[simp] theorem State.drawn_status (s : State) : s.drawn.status = s.status := rfl
@[simp] theorem State.drawn_res (s : State) : s.drawn.res = s.res := rfl
@[simp] theorem State.drawn_okind (s : State) : s.drawn.okind = s.okind := rfl
@[simp] theorem State.drawn_olen (s : State) : s.drawn.olen = s.olen := rfl
@[simp] theorem State.drawn_obuf (s : State) : s.drawn.obuf = s.obuf := rfl
@[simp] theorem State.drawn_script (s : State) : s.drawn.script = s.script := rfl
@[simp] theorem State.drawn_reads (s : State) : s.drawn.reads = s.reads := rfl
@[simp] theorem State.drawn_delay (s : State) : s.drawn.delay = s.delay := rfl
@[simp] theorem State.drawn_draws (s : State) : s.drawn.draws = s.draws + 1 := rfl

@[simp] theorem State.turn_phase (s : State) : s.turn.phase = s.phase := rfl
@[simp] theorem State.turn_lcmd (s : State) : s.turn.lcmd = s.lcmd := rfl
@[simp] theorem State.turn_ibuf (s : State) : s.turn.ibuf = s.ibuf := rfl
@[simp] theorem State.turn_ilen (s : State) : s.turn.ilen = s.ilen := rfl
@[simp] theorem State.turn_iovf (s : State) : s.turn.iovf = s.iovf := rfl
@[simp] theorem State.turn_herr (s : State) : s.turn.herr = s.herr := rfl
@[simp] theorem State.turn_status (s : State) : s.turn.status = s.status := rfl
@[simp] theorem State.turn_res (s : State) : s.turn.res = s.res := rfl
@[simp] theorem State.turn_okind (s : State) : s.turn.okind = s.okind := rfl
@[simp] theorem State.turn_olen (s : State) : s.turn.olen = s.olen := rfl
@[simp] theorem State.turn_obuf (s : State) : s.turn.obuf = s.obuf := rfl
@[simp] theorem State.turn_script (s : State) : s.turn.script = s.script.tail := rfl
@[simp] theorem State.turn_reads (s : State) : s.turn.reads = s.reads := rfl
@[simp] theorem State.turn_delay (s : State) : s.turn.delay = s.delay - 1 := rfl
@[simp] theorem State.turn_draws (s : State) : s.turn.draws = s.draws := rfl

@[simp] theorem State.poll_phase (s : State) : s.poll.phase = s.phase := rfl
@[simp] theorem State.poll_lcmd (s : State) : s.poll.lcmd = s.lcmd := rfl
@[simp] theorem State.poll_ibuf (s : State) : s.poll.ibuf = s.ibuf := rfl
@[simp] theorem State.poll_ilen (s : State) : s.poll.ilen = s.ilen := rfl
@[simp] theorem State.poll_iovf (s : State) : s.poll.iovf = s.iovf := rfl
@[simp] theorem State.poll_herr (s : State) : s.poll.herr = s.herr := rfl
@[simp] theorem State.poll_status (s : State) : s.poll.status = s.status := rfl
@[simp] theorem State.poll_res (s : State) : s.poll.res = s.res := rfl
@[simp] theorem State.poll_okind (s : State) : s.poll.okind = s.okind := rfl
@[simp] theorem State.poll_olen (s : State) : s.poll.olen = s.olen := rfl
@[simp] theorem State.poll_obuf (s : State) : s.poll.obuf = s.obuf := rfl
@[simp] theorem State.poll_script (s : State) : s.poll.script = s.script := rfl
@[simp] theorem State.poll_reads (s : State) : s.poll.reads = s.reads := rfl
@[simp] theorem State.poll_delay (s : State) : s.poll.delay = s.delay - 1 := rfl
@[simp] theorem State.poll_draws (s : State) : s.poll.draws = s.draws := rfl

@[simp] theorem State.expand_phase (s : State) (ts : List Txn) : (s.expand ts).phase = s.phase := rfl
@[simp] theorem State.expand_lcmd (s : State) (ts : List Txn) : (s.expand ts).lcmd = s.lcmd := rfl
@[simp] theorem State.expand_ibuf (s : State) (ts : List Txn) : (s.expand ts).ibuf = s.ibuf := rfl
@[simp] theorem State.expand_ilen (s : State) (ts : List Txn) : (s.expand ts).ilen = s.ilen := rfl
@[simp] theorem State.expand_iovf (s : State) (ts : List Txn) : (s.expand ts).iovf = s.iovf := rfl
@[simp] theorem State.expand_herr (s : State) (ts : List Txn) : (s.expand ts).herr = s.herr := rfl
@[simp] theorem State.expand_status (s : State) (ts : List Txn) : (s.expand ts).status = s.status := rfl
@[simp] theorem State.expand_res (s : State) (ts : List Txn) : (s.expand ts).res = s.res := rfl
@[simp] theorem State.expand_okind (s : State) (ts : List Txn) : (s.expand ts).okind = s.okind := rfl
@[simp] theorem State.expand_olen (s : State) (ts : List Txn) : (s.expand ts).olen = s.olen := rfl
@[simp] theorem State.expand_obuf (s : State) (ts : List Txn) : (s.expand ts).obuf = s.obuf := rfl
@[simp] theorem State.expand_script (s : State) (ts : List Txn) : (s.expand ts).script = ts ++ s.script := rfl
@[simp] theorem State.expand_reads (s : State) (ts : List Txn) : (s.expand ts).reads = s.reads := rfl
@[simp] theorem State.expand_delay (s : State) (ts : List Txn) : (s.expand ts).delay = s.delay := rfl
@[simp] theorem State.expand_draws (s : State) (ts : List Txn) : (s.expand ts).draws = s.draws := rfl

end Sys2Proof.Machine
end

