-- ==== Sys2Proof/Laws/Ops.lean ====
section
/-! SUPPORT. What a legal command can do, said once: every instruction is `runLegal` of its own function on the input. -/

namespace Sys2Proof.Machine

/-- The function on the input that an instruction runs. -/
def resultOf : Instr → List Byte → Result
  | .dss => dssResult
  | .dbe => dbeResult
  | .dtx => dtxResult
  | .dtxSel0 => onPayload (bytesResult .bytechar)
  | .dtxSel1 => onPayload utf16Result
  | .dtxSel2 => onPayload utf16Result
  | .dtxSel3 => onPayload (bytesResult .utf8raw)
  | .dtxOther04 _ | .dtxOther08 _ | .dtxOther10 _ | .dtxOther20 _ | .dtxOther40 _ | .dtxOther80 _ =>
    onPayload otherResult

theorem exec_eq_runLegal (i : Instr) (s : State) : exec i s = runLegal (resultOf i) s := by
  cases i <;> rfl

theorem runLegal_overflow (f : List Byte → Result) {s : State} (h : s.iovf = true) :
    runLegal f s = .next (s.raise .inputOverflow) := by
  simp [runLegal, h]

theorem runLegal_runs (f : List Byte → Result) {s : State} (h : s.iovf = false) (hc : s.ilen ≤ Config.ibufCap) :
    runLegal f s = .next (s.complete (f s.input)) := by
  simp [runLegal, h, hc]

/-- Everything a legal command can do when it answers a next state. -/
theorem runLegal_cases {f : List Byte → Result} {s t : State} (h : runLegal f s = .next t) :
    (s.iovf = true ∧ t = s.complete (errorResult .inputOverflow)) ∨
      (s.iovf = false ∧ s.ilen ≤ Config.ibufCap ∧ t = s.complete (f s.input)) := by
  unfold runLegal at h
  split at h
  · rename_i hv
    exact .inl ⟨hv, (Host.Outcome.next.inj h).symm⟩
  · split at h
    · rename_i hv hc
      exact .inr ⟨by simpa using hv, hc, (Host.Outcome.next.inj h).symm⟩
    · cases h

/-- The one way a legal command stops. -/
theorem runLegal_stops (f : List Byte → Result) {s : State} (h : s.iovf = false) (hc : Config.ibufCap < s.ilen) :
    runLegal f s = .fault .inputBeyondCapacity := by
  simp [runLegal, h, Nat.not_le.mpr hc]

/-- A legal command never refuses. -/
theorem runLegal_not_refused (f : List Byte → Result) (s : State) (r : Refusal) : runLegal f s ≠ .refused r := by
  unfold runLegal
  split
  · simp
  · split <;> simp

@[simp] theorem input_length (s : State) : s.input.length = s.ilen := by simp [State.input]

theorem input_getElem (s : State) {i : Nat} (h : i < s.ilen) : s.input[i]'(by simpa using h) = s.inByte i := by
  simp [State.input]

theorem input_getElem? (s : State) {i : Nat} (h : i < s.ilen) : s.input[i]? = some (s.inByte i) := by
  simp [State.input, h]

/-- Equal lengths and bytes are equal inputs. -/
theorem input_congr {s t : State} (hn : t.ilen = s.ilen) (hb : ∀ a, a < s.ilen → t.inByte a = s.inByte a) :
    t.input = s.input := by
  unfold State.input
  rw [hn]
  exact List.map_congr_left fun a ha => hb a (by simpa using ha)

/-- The input as its first byte and the payload. -/
theorem input_cons {s : State} (h : 0 < s.ilen) :
    s.input = s.inByte 0 :: (List.range (s.ilen - 1)).map fun j => s.inByte (j + 1) := by
  obtain ⟨n, hn⟩ : ∃ n, s.ilen = n + 1 := ⟨s.ilen - 1, by omega⟩
  simp [State.input, hn, List.range_succ_eq_map, Function.comp_def]

theorem input_nil {s : State} (h : s.ilen = 0) : s.input = [] := by
  simp [State.input, h]

theorem fetchBytes_empty {s : State} (h : s.ilen = 0) : s.fetchBytes = [s.lcmd] := by
  simp [State.fetchBytes, h]

theorem fetchBytes_cons {s : State} (h : 0 < s.ilen) : s.fetchBytes = [s.lcmd, s.inByte 0] := by
  simp [State.fetchBytes, h]

/-- The elements a command has written. -/
theorem complete_outElem (s : State) (r : Result) {i : Nat} (h : i < r.elems.length) :
    (s.complete r).outElem i = some r.elems[i] := Memory.read_output r.elems h

theorem Memory.read_none_of_range {w : Nat} {m : Memory w} {n i : Nat} (h : m.map Prod.fst = List.range n)
    (hi : n ≤ i) : Memory.read m i = none := by
  have hb := Memory.below_of_range h
  clear h
  induction m with
  | nil => rfl
  | cons p m ih =>
    obtain ⟨k, v⟩ := p
    have : k < n := hb (k, v) (by simp)
    simp only [Memory.read]
    rw [if_neg (by omega), ih fun p hp => hb p (by simp [hp])]

/-- Above the length nothing is specified. -/
theorem complete_outElem_none (s : State) (r : Result) {i : Nat} (h : r.elems.length ≤ i) :
    (s.complete r).outElem i = none :=
  Memory.read_none_of_range (Memory.output_range r.elems) h

/-- The decoded row of `DTX` computes what `DTX` computes. -/
theorem resultOf_decodeSelector (sel : Byte) (pay : List Byte) :
    resultOf (decodeSelector sel) (sel :: pay) = dtxResult (sel :: pay) := by
  unfold decodeSelector dtxResult
  split
  · simp_all [resultOf, onPayload]
  · split
    · simp_all [resultOf, onPayload]
    · split
      · simp_all [resultOf, onPayload]
      · split
        · simp_all [resultOf, onPayload]
        · rename_i h₀ h₁ h₂ h₃
          simp only [h₀, h₁, h₂, h₃, if_false, or_self]
          repeat' split
          all_goals rfl

/-- What the block's step does, from the latched word (R30). -/
theorem completeStep_next {s : State} (hc : s.ilen ≤ Config.ibufCap) :
    completeStep s = .next (s.complete (execResult s.lcmd s.iovf s.input)) := by
  by_cases h₁ : s.lcmd = 0x01#8
  · simp only [completeStep, State.fetchBytes, h₁, decode_dss, exec_eq_runLegal]
    cases hv : s.iovf
    · simp [runLegal_runs _ hv hc, execResult, resultOf]
    · simp [runLegal_overflow _ hv, execResult, State.raise]
  · by_cases h₂ : s.lcmd = 0x02#8
    · simp only [completeStep, State.fetchBytes, h₂, decode_dbe, exec_eq_runLegal]
      cases hv : s.iovf
      · simp [runLegal_runs _ hv hc, execResult, resultOf]
      · simp [runLegal_overflow _ hv, execResult, State.raise]
    · by_cases h₃ : s.lcmd = 0x03#8
      · rcases Nat.eq_zero_or_pos s.ilen with hz | hp
        · simp only [completeStep, fetchBytes_empty hz, h₃, decode_single, decodeCommand]
          cases hv : s.iovf
          · simp [exec_eq_runLegal, runLegal_runs _ hv hc, execResult, resultOf]
          · simp [exec_eq_runLegal, runLegal_overflow _ hv, execResult, State.raise]
        · simp only [completeStep, fetchBytes_cons hp, h₃, decode_dtx, exec_eq_runLegal]
          cases hv : s.iovf
          · simp [runLegal_runs _ hv hc, execResult, input_cons hp, resultOf_decodeSelector]
          · simp [runLegal_overflow _ hv, execResult, State.raise]
      · simp [completeStep, State.fetchBytes, decode_illegal h₁ h₂ h₃, execResult, h₁, h₂, h₃, State.raise]

end Sys2Proof.Machine
end

