-- ==== Sys2Proof/Laws/Text.lean ====
section
/-! SUPPORT. The UTF-16 scan against its inverse: units of code points, bytes of units. -/

namespace Sys2Proof.Machine

theorem isHigh_iff (u : CodeUnit) : isHigh u = true ↔ 0xD800 ≤ u.toNat ∧ u.toNat ≤ 0xDBFF := by
  simp [isHigh]

theorem isLow_iff (u : CodeUnit) : isLow u = true ↔ 0xDC00 ≤ u.toNat ∧ u.toNat ≤ 0xDFFF := by
  simp [isLow]

theorem isScalar_iff (c : Nat) : isScalar c = true ↔ c ≤ 0x10FFFF ∧ ¬ (0xD800 ≤ c ∧ c ≤ 0xDFFF) := by
  simp only [isScalar, Bool.and_eq_true, Bool.not_eq_true', Bool.and_eq_false_iff, decide_eq_true_eq, decide_eq_false_iff_not]
  omega

theorem scanUnits_pair {u v : CodeUnit} (hu : isHigh u = true) (hv : isLow v = true) (vs : List CodeUnit) :
    scanUnits (u :: v :: vs) = (scanUnits vs).map (pairElem u v :: ·) := by
  simp [scanUnits, hu, hv]

theorem scanUnits_highLast {u : CodeUnit} (hu : isHigh u = true) : scanUnits [u] = none := by
  simp [scanUnits, hu]

theorem scanUnits_highAlone {u v : CodeUnit} (hu : isHigh u = true) (hv : isLow v = false) (vs : List CodeUnit) :
    scanUnits (u :: v :: vs) = none := by
  simp [scanUnits, hu, hv]

theorem isHigh_of_isLow {u : CodeUnit} (hu : isLow u = true) : isHigh u = false := by
  rw [← Bool.not_eq_true, isHigh_iff]
  rw [isLow_iff] at hu
  omega

theorem scanUnits_low {u : CodeUnit} (hu : isLow u = true) (us : List CodeUnit) : scanUnits (u :: us) = none := by
  cases us <;> simp [scanUnits, hu, isHigh_of_isLow hu]

theorem scanUnits_ordinary {u : CodeUnit} (hu : isHigh u = false) (hl : isLow u = false) (us : List CodeUnit) :
    scanUnits (u :: us) = (scanUnits us).map (u.setWidth 21 :: ·) := by
  cases us <;> simp [scanUnits, hu, hl]

theorem highByte_append (a b : Byte) : (a ++ b : BitVec (8 + 8)).extractLsb' 8 8 = a := by
  apply BitVec.eq_of_toNat_eq
  rw [BitVec.extractLsb'_toNat, BitVec.toNat_append, ← Nat.shiftLeft_add_eq_or_of_lt b.isLt,
    Nat.shiftLeft_eq, Nat.shiftRight_eq_div_pow]
  have := a.isLt
  have := b.isLt
  omega

theorem lowByte_append (a b : Byte) : (a ++ b : BitVec (8 + 8)).extractLsb' 0 8 = b := by
  apply BitVec.eq_of_toNat_eq
  rw [BitVec.extractLsb'_toNat, BitVec.toNat_append, ← Nat.shiftLeft_add_eq_or_of_lt b.isLt,
    Nat.shiftLeft_eq, Nat.shiftRight_eq_div_pow]
  have := b.isLt
  omega

theorem pairElem_toNat {h l : CodeUnit} (hh : isHigh h = true) (hl : isLow l = true) :
    (pairElem h l).toNat = 0x10000 + (h.toNat - 0xD800) * 1024 + (l.toNat - 0xDC00) := by
  rw [isHigh_iff] at hh
  rw [isLow_iff] at hl
  rw [pairElem, BitVec.toNat_ofNat]
  omega

theorem widened_toNat (u : CodeUnit) : (u.setWidth 21 : Elem).toNat = u.toNat := by
  rw [BitVec.toNat_setWidth]
  have := u.isLt
  omega

/-- An ordinary unit is the one unit of its code point. -/
theorem unitsOfElem_widened (u : CodeUnit) : unitsOfElem (u.setWidth 21) = [u] := by
  have hlt := u.isLt
  rw [unitsOfElem, widened_toNat, if_pos (by omega)]
  simp

/-- A pair is the two units of its code point. -/
theorem unitsOfElem_pair {h l : CodeUnit} (hh : isHigh h = true) (hl : isLow l = true) :
    unitsOfElem (pairElem h l) = [h, l] := by
  rw [unitsOfElem, pairElem_toNat hh hl]
  rw [isHigh_iff] at hh
  rw [isLow_iff] at hl
  rw [if_neg (by omega)]
  have e₁ : 0xD800 + (0x10000 + (h.toNat - 0xD800) * 1024 + (l.toNat - 0xDC00) - 0x10000) / 1024 = h.toNat := by omega
  have e₂ : 0xDC00 + (0x10000 + (h.toNat - 0xD800) * 1024 + (l.toNat - 0xDC00) - 0x10000) % 1024 = l.toNat := by omega
  simp only [e₁, e₂, BitVec.ofNat_toNat, BitVec.setWidth_eq]

theorem unitsOfElem_length (e : Elem) : 1 ≤ (unitsOfElem e).length := by
  unfold unitsOfElem
  split <;> simp

/-- A code point's units are scanned back to it, whatever follows. -/
theorem scanUnits_elem {e : Elem} (he : isScalar e.toNat = true) (rest : List CodeUnit) :
    scanUnits (unitsOfElem e ++ rest) = (scanUnits rest).map (e :: ·) := by
  rw [isScalar_iff] at he
  unfold unitsOfElem
  split
  · rename_i hs
    have hu : (BitVec.ofNat 16 e.toNat).toNat = e.toNat := by rw [BitVec.toNat_ofNat]; omega
    have hw : (BitVec.ofNat 16 e.toNat).setWidth 21 = e := by
      apply BitVec.eq_of_toNat_eq
      rw [widened_toNat, hu]
    have h₁ : isHigh (BitVec.ofNat 16 e.toNat) = false := by
      rw [← Bool.not_eq_true, isHigh_iff, hu]; omega
    have h₂ : isLow (BitVec.ofNat 16 e.toNat) = false := by
      rw [← Bool.not_eq_true, isLow_iff, hu]; omega
    rw [List.singleton_append, scanUnits_ordinary h₁ h₂, hw]
  · rename_i hs
    have hh : (BitVec.ofNat 16 (0xD800 + (e.toNat - 0x10000) / 1024)).toNat = 0xD800 + (e.toNat - 0x10000) / 1024 := by
      rw [BitVec.toNat_ofNat]; omega
    have hl : (BitVec.ofNat 16 (0xDC00 + (e.toNat - 0x10000) % 1024)).toNat = 0xDC00 + (e.toNat - 0x10000) % 1024 := by
      rw [BitVec.toNat_ofNat]; omega
    have h₁ : isHigh (BitVec.ofNat 16 (0xD800 + (e.toNat - 0x10000) / 1024)) = true := by
      rw [isHigh_iff, hh]; omega
    have h₂ : isLow (BitVec.ofNat 16 (0xDC00 + (e.toNat - 0x10000) % 1024)) = true := by
      rw [isLow_iff, hl]; omega
    have hp : pairElem (BitVec.ofNat 16 (0xD800 + (e.toNat - 0x10000) / 1024))
        (BitVec.ofNat 16 (0xDC00 + (e.toNat - 0x10000) % 1024)) = e := by
      apply BitVec.eq_of_toNat_eq
      rw [pairElem_toNat h₁ h₂, hh, hl]
      omega
    simp only [List.cons_append, List.nil_append]
    rw [scanUnits_pair h₁ h₂, hp]

/-- A text's units are scanned back to it, whatever follows. -/
theorem scanUnits_text {text : List Elem} (ht : ∀ e ∈ text, isScalar e.toNat = true) (rest : List CodeUnit) :
    scanUnits (text.flatMap unitsOfElem ++ rest) = (scanUnits rest).map (text ++ ·) := by
  induction text with
  | nil => simp
  | cons e es ih =>
    rw [List.flatMap_cons, List.append_assoc, scanUnits_elem (ht e (by simp)), ih fun x hx => ht x (by simp [hx])]
    cases scanUnits rest <;> simp

/-- What the scan answers is a text of code points whose units were scanned. -/
theorem scanUnits_sound {us : List CodeUnit} {text : List Elem} (h : scanUnits us = some text) :
    (∀ e ∈ text, isScalar e.toNat = true) ∧ us = text.flatMap unitsOfElem := by
  induction us using scanUnits.induct generalizing text with
  | case1 =>
    obtain rfl : [] = text := by simpa [scanUnits] using h
    simp
  | case2 u hu => simp [scanUnits, hu] at h
  | case3 u hu v vs hv ih =>
    rw [scanUnits_pair hu hv, Option.map_eq_some_iff] at h
    obtain ⟨es, hes, rfl⟩ := h
    obtain ⟨h₁, h₂⟩ := ih hes
    refine ⟨fun e he => ?_, ?_⟩
    · rcases List.mem_cons.mp he with rfl | he
      · rw [isScalar_iff, pairElem_toNat hu hv]
        rw [isHigh_iff] at hu
        rw [isLow_iff] at hv
        omega
      · exact h₁ e he
    · rw [List.flatMap_cons, unitsOfElem_pair hu hv, ← h₂]
      rfl
  | case4 u hu v vs hv =>
    rw [scanUnits_highAlone hu (by simpa using hv)] at h
    cases h
  | case5 u us hu hl =>
    rw [scanUnits_low hl] at h
    cases h
  | case6 u us hu hl ih =>
    rw [scanUnits_ordinary (by simpa using hu) (by simpa using hl), Option.map_eq_some_iff] at h
    obtain ⟨es, hes, rfl⟩ := h
    obtain ⟨h₁, h₂⟩ := ih hes
    refine ⟨fun e he => ?_, ?_⟩
    · rcases List.mem_cons.mp he with rfl | he
      · rw [isScalar_iff, widened_toNat]
        rw [isHigh_iff] at hu
        rw [isLow_iff] at hl
        have := u.isLt
        omega
      · exact h₁ e he
    · rw [List.flatMap_cons, unitsOfElem_widened, ← h₂]
      rfl

/-- A unit's bytes are read back to it. -/
theorem codeUnits_unit (be : Bool) (u : CodeUnit) (rest : List Byte) :
    codeUnits be (bytesOfUnit be u ++ rest) = u :: codeUnits be rest := by
  have h : (u.extractLsb' 8 8 ++ u.extractLsb' 0 8 : BitVec (8 + 8)) = u := by
    apply BitVec.eq_of_getLsbD_eq
    intro i hi
    simp only [BitVec.getLsbD_append, BitVec.getLsbD_extractLsb']
    by_cases h8 : i < 8
    · simp [h8]
    · have e : 8 + (i - 8) = i := by omega
      have : i - 8 < 8 := by omega
      simp [h8, e, this]
  cases be
  · simp [bytesOfUnit, codeUnits, codeUnit, h]
  · simp [bytesOfUnit, codeUnits, codeUnit, h]

/-- The bytes of units are cut back into them. -/
theorem codeUnits_bytes (be : Bool) (us : List CodeUnit) : codeUnits be (us.flatMap (bytesOfUnit be)) = us := by
  induction us with
  | nil => cases be <;> rfl
  | cons u us ih => rw [List.flatMap_cons, codeUnits_unit, ih]

/-- Cutting an even number of bytes into units loses nothing. -/
theorem bytes_codeUnits (be : Bool) (bs : List Byte) (h : bs.length % 2 = 0) :
    (codeUnits be bs).flatMap (bytesOfUnit be) = bs := by
  induction bs using codeUnits.induct with
  | case1 b₀ b₁ rest ih =>
    have hr : rest.length % 2 = 0 := by simp only [List.length_cons] at h; omega
    rw [codeUnits, List.flatMap_cons, ih hr]
    cases be
    · simp only [codeUnit, bytesOfUnit, Bool.false_eq_true, if_false]
      rw [highByte_append, lowByte_append]
      rfl
    · simp only [codeUnit, bytesOfUnit, if_true]
      rw [highByte_append, lowByte_append]
      rfl
  | case2 bs hbs =>
    match bs, h with
    | [], _ => rfl
    | [_], h => simp at h
    | b₀ :: b₁ :: rest, _ => exact absurd rfl (hbs b₀ b₁ rest)

theorem codeUnits_length (be : Bool) (bs : List Byte) : (codeUnits be bs).length = bs.length / 2 := by
  induction bs using codeUnits.induct with
  | case1 b₀ b₁ rest ih =>
    simp only [codeUnits, List.length_cons, ih]
    omega
  | case2 bs hbs =>
    match bs with
    | [] => simp [codeUnits]
    | [_] => simp [codeUnits]
    | b₀ :: b₁ :: rest => exact absurd rfl (hbs b₀ b₁ rest)

/-- Each code point takes at least one unit. -/
theorem text_length_le (text : List Elem) : text.length ≤ (text.flatMap unitsOfElem).length := by
  induction text with
  | nil => simp
  | cons e es ih =>
    have := unitsOfElem_length e
    simp only [List.flatMap_cons, List.length_append, List.length_cons]
    omega

/-- The mark takes two bytes or none. -/
theorem splitMark_length (pay : List Byte) :
    (splitMark pay).2.length = pay.length ∨ (splitMark pay).2.length + 2 = pay.length := by
  match pay with
  | [] => exact .inl rfl
  | [_] => exact .inl rfl
  | b₀ :: b₁ :: rest =>
    simp only [splitMark]
    split
    · exact .inr rfl
    · split
      · exact .inr rfl
      · exact .inl rfl

theorem utf16Result_odd {pay : List Byte} (h : pay.length % 2 = 1) : utf16Result pay = errorResult .oddLength := by
  simp [utf16Result, h]

/-- The UTF-16 path on an even payload. -/
theorem utf16Result_even {pay : List Byte} (h : pay.length % 2 = 0) :
    utf16Result pay =
      match scanUnits (codeUnits (splitMark pay).1 (splitMark pay).2) with
      | none => errorResult .unpairedSurrogate
      | some elems => textResult .scalar elems := by
  unfold utf16Result
  exact if_neg (by omega)

end Sys2Proof.Machine
end

