-- ==== Sys2Proof/Laws/Step.lean ====
section
/-! SUPPORT. Everything one step can do, said once: the block's step, and each transaction of the host. -/

namespace Sys2Proof.Machine

/-- What the rules promise of the five components of any command (10_state.md R34, without its registers). -/
structure ResultValid (r : Result) : Prop where
  error_empty : r.status ≠ .ok → r.res = 0 ∧ r.kind = .none ∧ r.elems = []
  none_empty : r.kind = .none → r.elems = []
  bytes_small : r.kind = .bytechar ∨ r.kind = .utf8raw → ∀ e ∈ r.elems, e.toNat ≤ 0xFF
  scalars_valid : r.kind = .scalar → ∀ e ∈ r.elems, isScalar e.toNat = true
  text_no_integer : r.kind ≠ .none → r.res = 0

theorem errorResult_valid (c : Status) : ResultValid (errorResult c) := by
  constructor <;> simp [errorResult]

theorem intResult_valid (v : Word) : ResultValid (intResult v) := by
  constructor <;> simp [intResult]

theorem bytesResult_valid {k : Kind} (hk : k = .bytechar ∨ k = .utf8raw) (pay : List Byte) :
    ResultValid (bytesResult k pay) := by
  have hb : ∀ e ∈ pay.map (fun b => (b.setWidth 21 : Elem)), e.toNat ≤ 0xFF := by
    intro e he
    obtain ⟨b, -, rfl⟩ := List.mem_map.mp he
    rw [BitVec.toNat_setWidth]
    have := b.isLt
    omega
  rcases hk with rfl | rfl <;> constructor <;> simp_all [bytesResult, textResult]

theorem utf16Result_valid (pay : List Byte) : ResultValid (utf16Result pay) := by
  rcases Nat.mod_two_eq_zero_or_one pay.length with h | h
  · rw [utf16Result_even h]
    split
    · exact errorResult_valid _
    · rename_i elems he
      have := (scanUnits_sound he).1
      constructor <;> simp_all [textResult]
  · rw [utf16Result_odd h]
    exact errorResult_valid _

theorem otherResult_valid (pay : List Byte) : ResultValid (otherResult pay) := by
  constructor <;> simp [otherResult, textResult]

theorem dtxResult_valid (bs : List Byte) : ResultValid (dtxResult bs) := by
  cases bs with
  | nil => exact errorResult_valid _
  | cons sel pay =>
    simp only [dtxResult]
    repeat' split
    · exact bytesResult_valid (.inl rfl) pay
    · exact bytesResult_valid (.inr rfl) pay
    · exact utf16Result_valid pay
    · exact otherResult_valid pay

theorem dssResult_valid (bs : List Byte) : ResultValid (dssResult bs) := by
  simp only [dssResult]
  split
  · exact errorResult_valid _
  · exact intResult_valid _

theorem dbeResult_valid (bs : List Byte) : ResultValid (dbeResult bs) := by
  simp only [dbeResult]
  split
  · exact errorResult_valid _
  · exact intResult_valid _

theorem execResult_valid (w : Byte) (v : Bool) (bs : List Byte) : ResultValid (execResult w v bs) := by
  simp only [execResult]
  repeat' split
  · exact errorResult_valid _
  · exact errorResult_valid _
  · exact dssResult_valid bs
  · exact dbeResult_valid bs
  · exact dtxResult_valid bs

/-- The scan's output is at most as long as its units. -/
theorem utf16Result_length (pay : List Byte) : (utf16Result pay).elems.length ≤ pay.length / 2 := by
  rcases Nat.mod_two_eq_zero_or_one pay.length with h | h
  · rw [utf16Result_even h]
    split
    · simp [errorResult]
    · rename_i elems he
      have h₁ := text_length_le elems
      rw [← (scanUnits_sound he).2, codeUnits_length] at h₁
      have := splitMark_length pay
      simp only [textResult]
      omega
  · simp [utf16Result_odd h, errorResult]

/-- A command's output is shorter than its input (R126). -/
theorem dtxResult_length (bs : List Byte) : (dtxResult bs).elems.length ≤ bs.length - 1 := by
  cases bs with
  | nil => simp [dtxResult, errorResult]
  | cons sel pay =>
    have h16 := utf16Result_length pay
    simp only [dtxResult, List.length_cons]
    repeat' split
    · simp [bytesResult, textResult]
    · simp [bytesResult, textResult]
    · omega
    · simp [otherResult, textResult]

theorem execResult_length (w : Byte) (v : Bool) (bs : List Byte) :
    (execResult w v bs).elems.length ≤ bs.length - 1 := by
  have hd := dtxResult_length bs
  simp only [execResult]
  repeat' split
  · simp [errorResult]
  · simp [errorResult]
  · simp only [dssResult]; split <;> simp [errorResult, intResult]
  · simp only [dbeResult]; split <;> simp [errorResult, intResult]
  · exact hd

/-- Whatever the latched word, the block's step completes with what `Exec` computes, or stops as a legal command may. -/
theorem completeStep_cases {s t : State} (h : completeStep s = .next t) :
    t = s.complete (execResult s.lcmd s.iovf s.input) := by
  by_cases hc : s.ilen ≤ Config.ibufCap
  · rw [completeStep_next hc] at h
    exact (Host.Outcome.next.inj h).symm
  · by_cases hl : s.lcmd = 0x01#8 ∨ s.lcmd = 0x02#8 ∨ s.lcmd = 0x03#8
    · have hx : ∃ i, completeStep s = exec i s := by
        unfold completeStep
        have : 0 < s.ilen := by omega
        rw [fetchBytes_cons this]
        rcases hl with hl | hl | hl <;> rw [hl]
        · exact ⟨.dss, by simp⟩
        · exact ⟨.dbe, by simp⟩
        · exact ⟨_, by simp; rfl⟩
      obtain ⟨i, hi⟩ := hx
      rw [hi, exec_eq_runLegal] at h
      rcases runLegal_cases h with ⟨hv, rfl⟩ | ⟨_, hc', _⟩
      · have : ¬ (s.lcmd ≠ 0x01#8 ∧ s.lcmd ≠ 0x02#8 ∧ s.lcmd ≠ 0x03#8) := by tauto
        rw [execResult, if_neg this, hv, if_pos rfl]
      · exact absurd hc' hc
    · have h₁ : s.lcmd ≠ 0x01#8 := by tauto
      have h₂ : s.lcmd ≠ 0x02#8 := by tauto
      have h₃ : s.lcmd ≠ 0x03#8 := by tauto
      unfold completeStep at h
      rw [State.fetchBytes, decode_illegal h₁ h₂ h₃] at h
      rw [execResult, if_pos ⟨h₁, h₂, h₃⟩]
      exact (Host.Outcome.next.inj h).symm

/-- The three kinds of step. -/
theorem step_cases {s t : State} (h : step s = .next t) :
    (s.blockTurn = true ∧ t = s.complete (execResult s.lcmd s.iovf s.input)) ∨
      (s.blockTurn = false ∧ s.script = [] ∧ t = s) ∨
      (s.blockTurn = false ∧ ∃ x rest, s.script = x :: rest ∧ hostStep x s = .next t) := by
  unfold step at h
  split at h
  · rename_i hb
    exact .inl ⟨hb, completeStep_cases h⟩
  · rename_i hb
    rw [Bool.not_eq_true] at hb
    split at h
    · rename_i hs
      exact .inr (.inl ⟨hb, hs, (Host.Outcome.next.inj h).symm⟩)
    · rename_i x rest hs
      exact .inr (.inr ⟨hb, x, rest, hs, h⟩)

theorem step_block {s : State} (h : s.blockTurn = true) : step s = completeStep s := by
  simp [step, h]

theorem step_host {s : State} {x : Txn} {rest : List Txn} (h : s.blockTurn = false) (hs : s.script = x :: rest) :
    step s = hostStep x s := by
  unfold step
  rw [h, hs]
  rfl

theorem step_quiet {s : State} (h : s.blockTurn = false) (hs : s.script = []) : step s = .next s := by
  unfold step
  rw [h, hs]
  rfl

theorem blockTurn_iff (s : State) : s.blockTurn = true ↔ s.phase = .busy ∧ (s.delay = 0 ∨ s.script = []) := by
  simp [State.blockTurn]

theorem blockTurn_false_of_not_busy {s : State} (h : s.phase ≠ .busy) : s.blockTurn = false := by
  rw [← Bool.not_eq_true, blockTurn_iff]
  tauto

/-- Everything a host write can do. -/
theorem hostWrite_cases (s : State) (r : Reg) (d : Byte) :
    (s.phase = .busy ∧ (r = .inpush ∨ r = .inclr ∨ r = .cmd) ∧ s.hostWrite r d = s.flagProtocolError) ∨
      (s.phase ≠ .busy ∧ r = .inpush ∧ s.ilen < Config.ibufCap ∧ s.hostWrite r d = s.appendByte d) ∨
      (s.phase ≠ .busy ∧ r = .inpush ∧ Config.ibufCap ≤ s.ilen ∧ s.hostWrite r d = s.flagOverflow) ∨
      (s.phase ≠ .busy ∧ r = .inclr ∧ s.hostWrite r d = s.emptyInput) ∨
      (s.phase ≠ .busy ∧ r = .cmd ∧ s.hostWrite r d = s.accept d) ∨
      (r ≠ .inpush ∧ r ≠ .inclr ∧ r ≠ .cmd ∧ s.hostWrite r d = s) := by
  by_cases hb : s.phase = .busy
  · cases r <;> simp [State.hostWrite, hb]
  · by_cases hc : s.ilen < Config.ibufCap
    · cases r <;> simp [State.hostWrite, hb, hc]
    · cases r <;> simp [State.hostWrite, hb, hc, Nat.le_of_not_lt hc]

/-- A host read delivers one value and may draw one; it does nothing else. -/
theorem hostRead_eq (s : State) (r : Reg) (i : Nat) :
    ∃ v n, s.hostRead r i = { s with reads := ⟨r, i, v⟩ :: s.reads, draws := n } := by
  unfold State.hostRead
  split
  · exact ⟨_, s.draws, rfl⟩
  · exact ⟨_, s.draws + 1, rfl⟩

/-- Everything a transaction can do when it answers a next state. -/
theorem hostStep_cases {x : Txn} {s t : State} (h : hostStep x s = .next t) :
    (∃ n d r, x = .write n d ∧ regOfNumber n = some r ∧ t = s.turn.hostWrite r d) ∨
      (∃ n i r, x = .read n i ∧ regOfNumber n = some r ∧ t = s.turn.hostRead r i) ∨
      (x = .wait ∧ s.phase = .done ∧ t = s.turn) ∨
      (x = .wait ∧ s.phase ≠ .done ∧ t = s.poll) ∨
      (x = .readAll ∧ t = s.turn.expand ((List.range (lastOlen s.reads)).map (Txn.read 10 ·))) ∨
      (x = .reset ∧ t = s.turn.resetBlock) := by
  cases x with
  | write n d =>
    simp only [hostStep] at h
    split at h
    · rename_i r hr
      exact .inl ⟨n, d, r, rfl, hr, (Host.Outcome.next.inj h).symm⟩
    · cases h
  | read n i =>
    simp only [hostStep] at h
    split at h
    · rename_i r hr
      exact .inr (.inl ⟨n, i, r, rfl, hr, (Host.Outcome.next.inj h).symm⟩)
    · cases h
  | wait =>
    simp only [hostStep] at h
    split at h
    · rename_i hd
      exact .inr (.inr (.inl ⟨rfl, hd, (Host.Outcome.next.inj h).symm⟩))
    · rename_i hd
      exact .inr (.inr (.inr (.inl ⟨rfl, hd, (Host.Outcome.next.inj h).symm⟩)))
  | readAll => exact .inr (.inr (.inr (.inr (.inl ⟨rfl, (Host.Outcome.next.inj h).symm⟩))))
  | reset => exact .inr (.inr (.inr (.inr (.inr ⟨rfl, (Host.Outcome.next.inj h).symm⟩))))

theorem regOfNumber_eq_some {n : Nat} {r : Reg} : regOfNumber n = some r ↔ n = r.number := by
  constructor
  · intro h
    unfold regOfNumber at h
    split at h <;> first | (cases h; rfl) | cases h
  · rintro rfl
    cases r <;> rfl

theorem regOfNumber_none {n : Nat} (h : 10 < n) : regOfNumber n = none := by
  match n, h with
  | n + 11, _ => rfl

theorem regOfNumber_known {n : Nat} (h : n ≤ 10) : ∃ r, regOfNumber n = some r := by
  have : n = 0 ∨ n = 1 ∨ n = 2 ∨ n = 3 ∨ n = 4 ∨ n = 5 ∨ n = 6 ∨ n = 7 ∨ n = 8 ∨ n = 9 ∨ n = 10 := by omega
  rcases this with rfl | rfl | rfl | rfl | rfl | rfl | rfl | rfl | rfl | rfl | rfl <;> exact ⟨_, rfl⟩

end Sys2Proof.Machine
end

