-- ==== Sys2Proof/Laws/Completion.lean ====
section
/-! SUPPORT. Completion in the terms of the statements, and every step in terms of one transaction at a time. -/

namespace Sys2Proof.Machine

/-- Completing a command with a result is what `Completes` says. -/
theorem complete_completes (s : State) (r : Result) :
    Completes s (s.complete r) r.status r.res r.kind r.elems where
  phase_done := rfl
  status_eq := rfl
  res_eq := rfl
  okind_eq := rfl
  olen_eq := rfl
  elems_eq _ h := complete_outElem s r h
  beyond_unspecified _ h := complete_outElem_none s r h
  lcmd_same := rfl
  input_same _ := rfl
  ilen_same := rfl
  iovf_same := rfl
  herr_same := rfl
  script_same := rfl
  reads_same := rfl
  delay_same := rfl
  draws_same := rfl

/-- An instruction with no overflow completes with its function of the input. -/
theorem exec_completes (i : Instr) {s : State} (h : s.iovf = false) (hc : s.ilen ≤ Config.ibufCap) :
    exec i s = .next (s.complete (resultOf i s.input)) := by
  rw [exec_eq_runLegal, runLegal_runs _ h hc]

theorem five_le_ibufCap : 5 ≤ Config.ibufCap := by
  unfold Config.ibufCap
  omega

theorem hostTurn_step {s : State} {x : Txn} {rest : List Txn} (h : s.hostTurn x rest) : step s = hostStep x s :=
  step_host h.1 h.2

theorem hostTurn_tail {s : State} {x : Txn} {rest : List Txn} (h : s.hostTurn x rest) :
    s.turn = { s with script := rest, delay := s.delay - 1 } := by
  rw [State.turn, h.2, List.tail_cons]

/-- A selector of the kind the statements name, as the function on the payload it runs. -/
theorem resultOf_dtxWith {rows : List Instr} {sels : Byte → Bool} {s : State} {i : Instr} {f : List Byte → Result}
    (hp : 0 < s.ilen) (hrow : ∀ j ∈ rows, resultOf j = onPayload f)
    (hsel : ∀ b pay, sels b = true → dtxResult (b :: pay) = f pay) (h : dtxWith rows sels s i) :
    resultOf i s.input = f s.input.tail := by
  rw [input_cons hp]
  rcases h with h | ⟨rfl, h⟩
  · rw [hrow i h]
    rfl
  · exact hsel _ _ h

end Sys2Proof.Machine
end

