-- ==== Sys2Proof/Laws/PerInstr.lean ====
section
/-! SUPPORT. Facts of every instruction as syntax, one lemma per constructor. -/

namespace Sys2Proof.Laws.EncodingShape

/-- An encoding is a legal command word and at most one byte more. -/
def Statement (i : Instr) : Prop :=
  ∃ w rest, encode i = w :: rest ∧ rest.length ≤ 1 ∧ (w = 0x01#8 ∨ w = 0x02#8 ∨ w = 0x03#8)

theorem dss : Statement .dss := ⟨0x01#8, [], rfl, by simp, by simp⟩
theorem dbe : Statement .dbe := ⟨0x02#8, [], rfl, by simp, by simp⟩
theorem dtx : Statement .dtx := ⟨0x03#8, [], rfl, by simp, by simp⟩
theorem dtxSel0 : Statement .dtxSel0 := ⟨0x03#8, [0x00#8], rfl, by simp, by simp⟩
theorem dtxSel1 : Statement .dtxSel1 := ⟨0x03#8, [0x01#8], rfl, by simp, by simp⟩
theorem dtxSel2 : Statement .dtxSel2 := ⟨0x03#8, [0x02#8], rfl, by simp, by simp⟩
theorem dtxSel3 : Statement .dtxSel3 := ⟨0x03#8, [0x03#8], rfl, by simp, by simp⟩
theorem dtxOther04 (sel : Byte) : Statement (.dtxOther04 sel) := ⟨0x03#8, [sel], rfl, by simp, by simp⟩
theorem dtxOther08 (sel : Byte) : Statement (.dtxOther08 sel) := ⟨0x03#8, [sel], rfl, by simp, by simp⟩
theorem dtxOther10 (sel : Byte) : Statement (.dtxOther10 sel) := ⟨0x03#8, [sel], rfl, by simp, by simp⟩
theorem dtxOther20 (sel : Byte) : Statement (.dtxOther20 sel) := ⟨0x03#8, [sel], rfl, by simp, by simp⟩
theorem dtxOther40 (sel : Byte) : Statement (.dtxOther40 sel) := ⟨0x03#8, [sel], rfl, by simp, by simp⟩
theorem dtxOther80 (sel : Byte) : Statement (.dtxOther80 sel) := ⟨0x03#8, [sel], rfl, by simp, by simp⟩

end Sys2Proof.Laws.EncodingShape
end

