-- ==== Sys2Proof/Laws/Run.lean ====
section
/-! SUPPORT. The end of a run (70_reset_and_hazards.md R206): it is reached by steps, it is unique, and steps taken while
the script is not exhausted lead to it. -/

namespace Sys2Proof.Machine

theorem runSteps_succ {s t : State} (h : step s = .next t) (k : Nat) : runSteps (k + 1) s = runSteps k t := by
  have hc : Sys2Proof.core.step s = .next t := h
  simp only [runSteps, Host.Core.run, hc]
  rfl

/-- Where a first step of a run of steps is known to succeed, because the run does. -/
theorem runSteps_step {k : Nat} {s t : State} (h : runSteps (k + 1) s = .next t) :
    ∃ u, step s = .next u ∧ runSteps k u = .next t := by
  cases hs : step s with
  | next u => exact ⟨u, rfl, by rwa [runSteps_succ hs] at h⟩
  | fault r =>
    have hc : Sys2Proof.core.step s = .fault r := hs
    simp only [runSteps, Host.Core.run, hc] at h
    cases h
  | refused r =>
    have hc : Sys2Proof.core.step s = .refused r := hs
    simp only [runSteps, Host.Core.run, hc] at h
    cases h

theorem endOfRun_done {s : State} (h : s.script = []) (k : Nat) : endOfRun k s = some s := by
  cases k <;> exact if_pos h

theorem endOfRun_step {s t : State} (h : s.script ≠ []) (hs : step s = .next t) (k : Nat) :
    endOfRun (k + 1) s = endOfRun k t := by
  rw [endOfRun, if_neg h, hs]

/-- A run that has ended is its own end, or it takes a step and ends from there. -/
theorem endOfRun_cases {k : Nat} {s t : State} (h : endOfRun k s = some t) :
    (s.script = [] ∧ t = s) ∨ ∃ j u, k = j + 1 ∧ s.script ≠ [] ∧ step s = .next u ∧ endOfRun j u = some t := by
  by_cases he : s.script = []
  · rw [endOfRun_done he] at h
    exact .inl ⟨he, (Option.some.inj h).symm⟩
  · right
    cases k with
    | zero => rw [endOfRun, if_neg he] at h; cases h
    | succ j =>
      rw [endOfRun, if_neg he] at h
      split at h
      · rename_i u hu
        exact ⟨j, u, rfl, he, hu, h⟩
      all_goals cases h

/-- At its end a run has performed every transaction. -/
theorem endOfRun_script {k : Nat} {s t : State} (h : endOfRun k s = some t) : t.script = [] := by
  induction k generalizing s with
  | zero =>
    rcases endOfRun_cases h with ⟨he, rfl⟩ | ⟨j, u, hj, _⟩
    · exact he
    · omega
  | succ k ih =>
    rcases endOfRun_cases h with ⟨he, rfl⟩ | ⟨j, u, hj, _, _, hu⟩
    · exact he
    · obtain rfl : k = j := by omega
      exact ih hu

/-- The end of a run is reached by steps of the machine. -/
theorem endOfRun_reached {k : Nat} {s t : State} (h : endOfRun k s = some t) : ∃ j ≤ k, runSteps j s = .next t := by
  induction k generalizing s with
  | zero =>
    rcases endOfRun_cases h with ⟨_, rfl⟩ | ⟨j, u, hj, _⟩
    · exact ⟨0, le_refl _, rfl⟩
    · omega
  | succ k ih =>
    rcases endOfRun_cases h with ⟨_, rfl⟩ | ⟨j, u, hj, _, hs, hu⟩
    · exact ⟨0, Nat.zero_le _, rfl⟩
    · obtain rfl : k = j := by omega
      obtain ⟨n, hn, hr⟩ := ih hu
      exact ⟨n + 1, by omega, by rw [runSteps_succ hs, hr]⟩

/-- A run has one end. -/
theorem endOfRun_unique {k : Nat} {s t : State} (h : endOfRun k s = some t) :
    ∀ {j : Nat} {u : State}, endOfRun j s = some u → u = t := by
  induction k generalizing s with
  | zero =>
    intro j u hu
    rcases endOfRun_cases h with ⟨he, rfl⟩ | ⟨i, v, hi, _⟩
    · exact (Option.some.inj ((endOfRun_done he j).symm.trans hu)).symm
    · omega
  | succ k ih =>
    intro j u hu
    rcases endOfRun_cases h with ⟨he, rfl⟩ | ⟨i, v, hi, hn, hs, hv⟩
    · exact (Option.some.inj ((endOfRun_done he j).symm.trans hu)).symm
    · obtain rfl : k = i := by omega
      rcases endOfRun_cases hu with ⟨he, _⟩ | ⟨i', v', _, _, hs', hv'⟩
      · exact absurd he hn
      · obtain rfl : v = v' := Host.Outcome.next.inj (hs.symm.trans hs')
        exact ih hv hv'

theorem runEnds_unique {s t u : State} (h : RunEnds s t) (h' : RunEnds s u) : u = t := by
  obtain ⟨_, hk⟩ := h
  obtain ⟨_, hj⟩ := h'
  exact endOfRun_unique hk hj

/-- No step puts a transaction into an exhausted script. -/
theorem step_script_nil {s t : State} (h : s.script = []) (hs : step s = .next t) : t.script = [] := by
  rcases step_cases hs with ⟨_, rfl⟩ | ⟨_, _, rfl⟩ | ⟨_, x, rest, hsc, _⟩
  · exact h
  · exact h
  · rw [h] at hsc; cases hsc

/-- While transactions are left, steps do not pass the end of the run. -/
theorem endOfRun_of_steps {k : Nat} {s t : State} (h : runSteps k s = .next t) (hn : t.script ≠ []) (j : Nat) :
    endOfRun (k + j) s = endOfRun j t := by
  induction k generalizing s with
  | zero => cases h; rw [Nat.zero_add]
  | succ k ih =>
    obtain ⟨u, hs, hu⟩ := runSteps_step h
    have hne : s.script ≠ [] := by
      intro he
      have hnil : ∀ (n : Nat) (v : State), v.script = [] → runSteps n v = .next t → t.script = [] := by
        intro n
        induction n with
        | zero => intro v hv hr; cases hr; exact hv
        | succ n ihn =>
          intro v hv hr
          obtain ⟨w, hw, hr'⟩ := runSteps_step hr
          exact ihn w (step_script_nil hv hw) hr'
      exact hn (hnil (k + 1) s he h)
    rw [Nat.succ_add, endOfRun_step hne hs, ih hu]

end Sys2Proof.Machine
end

