-- ==== Sys2Proof/Tests/Slice0.lean ====
section
/-! SUPPORT. The model's own tests. Expected results come from the words of 30_encoding.md and the vectors of
95_test_vectors.md (their ids in the docstrings); the last part shows, for every statement with hypotheses, that they can
be met together. -/

namespace Sys2Proof.Tests

open Sys2Proof Sys2Proof.Machine

/-! ### Well-formedness: each of the six checks refuses a selector beside its row's range -/

theorem test_wf_other04 : Instr.wf (.dtxOther04 0x08#8) = false ∧ Instr.wf (.dtxOther04 0x07#8) = true := by decide

theorem test_wf_other08 : Instr.wf (.dtxOther08 0x07#8) = false ∧ Instr.wf (.dtxOther08 0x08#8) = true := by decide

theorem test_wf_other10 : Instr.wf (.dtxOther10 0x0F#8) = false ∧ Instr.wf (.dtxOther10 0x1F#8) = true := by decide

theorem test_wf_other20 : Instr.wf (.dtxOther20 0x40#8) = false ∧ Instr.wf (.dtxOther20 0x20#8) = true := by decide

theorem test_wf_other40 : Instr.wf (.dtxOther40 0x80#8) = false ∧ Instr.wf (.dtxOther40 0x7F#8) = true := by decide

theorem test_wf_other80 : Instr.wf (.dtxOther80 0x7F#8) = false ∧ Instr.wf (.dtxOther80 0xFF#8) = true := by decide

theorem test_line_wf : Line.wf (.rd .out) = false ∧ Line.wf (.rd .okind) = true := by decide

/-! ### Decoding: words written out from R62 to R64 and R70 to R74 -/

theorem test_decode_dss : decode [0b00000001#8] = .ok .dss := by rfl

theorem test_decode_dbe : decode [0b00000010#8] = .ok .dbe := by rfl

theorem test_decode_dtx : decode [0b00000011#8] = .ok .dtx := by rfl

theorem test_decode_illegal : decode [0x00#8] = .error (.illegalCommand 0x00#8) ∧
    decode [0x04#8] = .error (.illegalCommand 0x04#8) ∧ decode [0x81#8] = .error (.illegalCommand 0x81#8) := by
  exact ⟨rfl, rfl, rfl⟩

theorem test_decode_empty : decode [] = .error .noWord := by rfl

theorem test_decode_sel0 : decode [0x03#8, 0b00000000#8] = .ok .dtxSel0 := by rfl

theorem test_decode_sel1 : decode [0x03#8, 0b00000001#8] = .ok .dtxSel1 := by rfl

theorem test_decode_sel2 : decode [0x03#8, 0b00000010#8] = .ok .dtxSel2 := by rfl

theorem test_decode_sel3 : decode [0x03#8, 0b00000011#8] = .ok .dtxSel3 := by rfl

theorem test_decode_other04 : decode [0x03#8, 0b00000110#8] = .ok (.dtxOther04 0x06#8) := by rfl

theorem test_decode_other08 : decode [0x03#8, 0b00001011#8] = .ok (.dtxOther08 0x0B#8) := by rfl

theorem test_decode_other10 : decode [0x03#8, 0b00010000#8] = .ok (.dtxOther10 0x10#8) := by rfl

theorem test_decode_other20 : decode [0x03#8, 0b00111111#8] = .ok (.dtxOther20 0x3F#8) := by rfl

theorem test_decode_other40 : decode [0x03#8, 0b01000001#8] = .ok (.dtxOther40 0x41#8) := by rfl

theorem test_decode_other80 : decode [0x03#8, 0b10000000#8] = .ok (.dtxOther80 0x80#8) := by rfl

/-- An 8-bit table word 1, 2 or 3 is read as a command, any other as a selector; sixteen bits hold both (log 12). -/
theorem test_table_words : decodeTableWord 8 3 = some .dtx ∧ decodeTableWord 8 0 = some .dtxSel0 ∧
    decodeTableWord 8 0x40 = some (.dtxOther40 0x40#8) ∧ decodeTableWord 16 0x0103 = some .dtxSel1 := by decide

/-! ### Results -/

/-- A block about to run a command on these bytes. -/
def ready (w : Byte) (bs : List Byte) : State :=
  { State.reset with phase := .busy, lcmd := w, ilen := bs.length, ibuf := bs.zipIdx.map fun p => (p.2, p.1) }

/-- The four result registers and the elements below `OLEN`, after the block's step. -/
def results (s : State) : Option (Status × Word × Kind × List (Option Elem)) :=
  match step s with
  | .next t => some (t.status, t.res, t.okind, (List.range t.olen).map t.outElem)
  | _ => none

/-- T-DSS-1. -/
theorem test_dss_basic : results (ready 0x01#8 [0x00#8, 0x00#8, 0x02#8, 0x01#8]) = some (.ok, 0x101, .none, []) := by decide

/-- T-DSS-13. -/
theorem test_dss_long : results (ready 0x01#8 [0x0F#8, 0x7F#8, 0x7F#8, 0x7F#8, 0x7F#8]) =
    some (.ok, 0xFFFFFFFF, .none, []) := by decide

/-- T-DBE-10. -/
theorem test_dbe_four : results (ready 0x02#8 [0xFF#8, 0xFF#8, 0xFF#8, 0xFF#8]) = some (.ok, 0xFFFFFFFF, .none, []) := by decide

/-- T-DBE-11. -/
theorem test_dbe_long : results (ready 0x02#8 [0x00#8, 0x00#8, 0x00#8, 0x00#8, 0x01#8]) =
    some (.longInput, 0, .none, []) := by decide

/-- T-DTX-1. -/
theorem test_dtx_empty : results (ready 0x03#8 []) = some (.shortInput, 0, .none, []) := by decide

/-- T-DTX-14: no mark means little-endian. -/
theorem test_dtx_no_mark : results (ready 0x03#8 [0x01#8, 0x00#8, 0x41#8]) = some (.ok, 0, .scalar, [some 0x4100]) := by decide

/-- T-DTX-4. -/
theorem test_sel0 : results (ready 0x03#8 [0x00#8, 0xE9#8, 0xFF#8, 0x00#8]) =
    some (.ok, 0, .bytechar, [some 0xE9, some 0xFF, some 0]) := by decide

/-- T-DTX-11: the source's example. -/
theorem test_sel1_big : results (ready 0x03#8 [0x01#8, 0xFE#8, 0xFF#8, 0x00#8, 0x41#8]) =
    some (.ok, 0, .scalar, [some 0x41]) := by decide

/-- T-DTX-24: a surrogate pair. -/
theorem test_sel1_pair : results (ready 0x03#8 [0x01#8, 0x3D#8, 0xD8#8, 0x00#8, 0xDE#8]) =
    some (.ok, 0, .scalar, [some 0x1F600]) := by decide

/-- T-DTX-17: selector 2 without a mark is little-endian. -/
theorem test_sel2_no_mark : results (ready 0x03#8 [0x02#8, 0x41#8, 0x00#8]) = some (.ok, 0, .scalar, [some 0x41]) := by decide

/-- T-DTX-30, under selector 2: a lone low surrogate. -/
theorem test_sel2_low : results (ready 0x03#8 [0x02#8, 0x00#8, 0xDE#8]) = some (.unpairedSurrogate, 0, .none, []) := by decide

/-- T-DTX-7. -/
theorem test_sel3 : results (ready 0x03#8 [0x03#8, 0xFF#8, 0x80#8]) =
    some (.ok, 0, .utf8raw, [some 0xFF, some 0x80]) := by decide

/-- T-DTX-36. -/
theorem test_other04 : results (ready 0x03#8 [0x04#8, 0x41#8, 0x42#8, 0x43#8]) = some (.ok, 0, .none, []) := by decide

theorem test_other08 : results (ready 0x03#8 [0x0F#8, 0x41#8]) = some (.ok, 0, .none, []) := by decide

theorem test_other10 : results (ready 0x03#8 [0x10#8, 0x00#8, 0xDE#8]) = some (.ok, 0, .none, []) := by decide

theorem test_other20 : results (ready 0x03#8 [0x20#8]) = some (.ok, 0, .none, []) := by decide

theorem test_other40 : results (ready 0x03#8 [0x7F#8, 0x41#8]) = some (.ok, 0, .none, []) := by decide

/-- T-DTX-39. -/
theorem test_other80 : results (ready 0x03#8 [0x80#8, 0xFE#8, 0xFF#8, 0x00#8, 0x41#8]) = some (.ok, 0, .none, []) := by decide

/-- T-SYS-2: 0x00 is illegal. -/
theorem test_illegal : results (ready 0x00#8 [0x00#8, 0x00#8, 0x02#8, 0x01#8]) = some (.illegalCmd, 0, .none, []) := by decide

/-- A block with `IOVF` set. -/
def overflowed (w : Byte) (bs : List Byte) : State := (ready w bs).flagOverflow

/-- T-SYS-6, T-SYS-7: overflow beats the length test, and the illegal word beats overflow. -/
theorem test_overflow_priority :
    results (overflowed 0x02#8 [0x00#8, 0x00#8, 0x00#8, 0x00#8, 0x00#8]) = some (.inputOverflow, 0, .none, []) ∧
    results (overflowed 0x04#8 [0x00#8]) = some (.illegalCmd, 0, .none, []) := ⟨by decide, by decide⟩

/-- T-DSS-16, T-DSS-17: longer inputs, on the command's own function. -/
theorem test_dss_six_and_eight :
    dssResult [0xAA#8, 0x01#8, 0x00#8, 0x00#8, 0x00#8, 0x01#8] = intResult 0x10000001 ∧
    dssResult [0x00#8, 0x00#8, 0x02#8, 0x01#8, 0x00#8, 0x00#8, 0x00#8, 0x07#8] = intResult 0x10000007 := by decide

/-- T-DTX-22, T-DTX-33, T-DTX-40. -/
theorem test_utf16_long :
    dtxResult [0x01#8, 0xFF#8, 0xFE#8, 0xFF#8, 0xFE#8, 0x41#8, 0x00#8] = textResult .scalar [0xFEFF, 0x41] ∧
    dtxResult [0x01#8, 0x3D#8, 0xD8#8, 0x3D#8, 0xD8#8, 0x00#8, 0xDE#8] = errorResult .unpairedSurrogate ∧
    dtxResult [0x01#8, 0xFF#8, 0xFE#8, 0x3D#8, 0xD8#8, 0x41#8, 0x00#8, 0x00#8] = errorResult .oddLength := by decide

/-- T-DSS-30, the encoding side. -/
theorem test_enc28 : enc28 0xF51F95B#28 = [0x7A#8, 0x47#8, 0x72#8, 0x5B#8] := by decide

/-- T-SYS-1: what the host reads right after reset, register by register. -/
theorem test_reset_reads :
    ([Reg.phase, .cmd, .ilen, .flags, .status, .res, .olen, .okind].map fun r => State.reset.readValue r 0) =
      [some 0, some 0, some 0, some 0, some 0, some 0, some 0, some 0] := by decide

/-- S5: the document's two flag bytes. -/
theorem test_header_flags : (0x80#8 : Byte).getLsbD 7 = true ∧ (0x80#8 : Byte).getLsbD 4 = false ∧
    (0x10#8 : Byte).getLsbD 4 = true ∧ (0x10#8 : Byte).getLsbD 7 = false := by decide

/-- P1's encoding as (register, data) writes. -/
theorem test_assemble : assemble (loadLines [0x00#8, 0x00#8, 0x02#8, 0x01#8] ++ runLines .dss) =
    [.write 3 0x00#8, .write 2 0x00#8, .write 2 0x00#8, .write 2 0x02#8, .write 2 0x01#8, .write 1 0x01#8, .wait] := by decide

/-! ### Witnesses: for every statement with hypotheses, a state and operands that meet them together -/

theorem witness_DecodeInvertsEncode : Instr.wf (.dtxOther80 0xFF#8) = true ∧ Instr.dtxOther80 0xFF#8 ≠ .dtx := by decide

theorem witness_DecodedBytesBeginWithEncoding : decode [0x03#8, 0x41#8, 0x09#8] = .ok (.dtxOther40 0x41#8) := by rfl

theorem witness_SelectorRowsPartitionBytes :
    Instr.wf (.dtxOther04 0x07#8) = true ∧ encode (.dtxOther04 0x07#8) = [0x03#8, 0x07#8] := by decide

theorem witness_StepRunsDecodedInstruction :
    ((ready 0x03#8 []).phase = .busy ∧ (ready 0x03#8 []).delay = 0 ∧ (ready 0x03#8 []).ilen = 0 ∧
      decode [(ready 0x03#8 []).lcmd] = .ok .dtx) ∧
    ((ready 0x03#8 [0x02#8]).phase = .busy ∧ (ready 0x03#8 [0x02#8]).script = [] ∧ 0 < (ready 0x03#8 [0x02#8]).ilen ∧
      decode [(ready 0x03#8 [0x02#8]).lcmd, (ready 0x03#8 [0x02#8]).inByte 0] = .ok .dtxSel2) :=
  ⟨⟨rfl, rfl, rfl, rfl⟩, ⟨rfl, rfl, by decide, rfl⟩⟩

theorem witness_FetchWordRunsTableInstruction : decodeTableWord 8 0xFF = some (.dtxOther80 0xFF#8) := by decide

theorem witness_CompleteWritesExec : State.reset.phase ≠ .busy ∧
    (ready 0x02#8 [0x07#8]).phase = .busy ∧ (ready 0x02#8 [0x07#8]).delay = 0 ∧ (ready 0x02#8 [0x07#8]).ilen ≤ Config.ibufCap := by
  decide

theorem witness_IllegalCommandCompletes : (ready 0x00#8 []).phase = .busy ∧ (ready 0x00#8 []).delay = 0 ∧
    (ready 0x00#8 []).lcmd ≠ 0x01#8 ∧ (ready 0x00#8 []).lcmd ≠ 0x02#8 ∧ (ready 0x00#8 []).lcmd ≠ 0x03#8 := by decide

theorem witness_OverflowFailsEveryCommand : (overflowed 0x01#8 []).iovf = true ∧
    step State.reset.flagOverflow = .next State.reset.flagOverflow ∧ State.reset.flagOverflow.iovf = true :=
  ⟨rfl, rfl, rfl⟩

/-- A full input buffer, and the host about to perform this transaction. -/
def full (x : Txn) : State := { State.reset with ilen := Config.ibufCap, script := [x] }

/-- An idle block, and the host about to perform this transaction. -/
def idle (x : Txn) : State := { State.reset with script := [x] }

/-- A busy block that is not yet done, and the host about to perform this transaction. -/
def busy (x : Txn) : State := { State.reset with phase := .busy, delay := 1, script := [x] }

/-- A completed block with one output element, and the host about to perform this transaction. -/
def finished (x : Txn) : State :=
  { State.reset with phase := .done, okind := .bytechar, olen := 1, obuf := [(0, 0x41#21)], script := [x] }

/-- R206: the script `CMD 01` alone ends in `BUSY`, so its run does not end well, though the block completes one step
later. -/
theorem test_run_ends_in_busy : RunEnds (idle (.write 1 0x01#8)) ((idle (.write 1 0x01#8)).turn.accept 0x01#8) ∧
    ∀ t, ¬ RunEndsWell (idle (.write 1 0x01#8)) t :=
  have h : RunEnds (idle (.write 1 0x01#8)) ((idle (.write 1 0x01#8)).turn.accept 0x01#8) := ⟨1, rfl⟩
  ⟨h, fun _ ht => ht.2 (by rw [runEnds_unique h ht.1]; rfl)⟩

/-- R206: a script whose last transaction finds the block done ends well. -/
theorem test_run_ends_well : RunEndsWell (finished .wait) { finished .wait with script := [] } :=
  ⟨⟨1, rfl⟩, by decide⟩

/-- The frame of P4, behind a version-2 header. -/
def v2Stream : List Byte :=
  [0x49#8, 0x44#8, 0x33#8, 0x02#8, 0x00#8, 0x00#8, 0x00#8, 0x00#8, 0x00#8, 0x10#8,
    0x54#8, 0x54#8, 0x32#8, 0x00#8, 0x00#8, 0x03#8, 0x00#8, 0x48#8, 0x69#8]

/-- R153, R154: padding ends the frames. -/
theorem test_v2_padding : decodeV2 (v2Stream ++ [0x00#8, 0x00#8, 0x00#8, 0x00#8, 0x00#8, 0x00#8]) =
    .ok (⟨0x02#8, 0x00#8, false, false, false, false, 16⟩, some [⟨[0x54#8, 0x54#8, 0x32#8], [0x00#8, 0x48#8, 0x69#8]⟩]) := by
  rfl

/-- R160: a short read aborts the tag; the frame before it is no result. -/
theorem test_v2_short_aborts : decodeV2 (v2Stream ++ [0x54#8]) = .error .readError := by rfl

/-- R141: the tail buffer is the end of the stream. -/
theorem test_tail : tailBuffer (0x07#8 :: List.replicate 128 0x54#8) = .ok (List.replicate 128 0x54#8) := by
  simp [tailBuffer]

theorem full_turn (x : Txn) : (full x).hostTurn x [] := ⟨rfl, rfl⟩

theorem idle_turn (x : Txn) : (idle x).hostTurn x [] := ⟨rfl, rfl⟩

theorem busy_turn (x : Txn) : (busy x).hostTurn x [] := ⟨rfl, rfl⟩

theorem finished_turn (x : Txn) : (finished x).hostTurn x [] := ⟨rfl, rfl⟩

theorem witness_OverflowFlagSetByFullPush :
    (∃ t, step (full (.write 2 0x07#8)) = .next t) ∧ (full (.write 2 0x07#8)).iovf = false ∧
      (full (.write 2 0x07#8)).phase ≠ .busy ∧ Config.ibufCap ≤ (full (.write 2 0x07#8)).ilen ∧
      (full (.write 2 0x07#8)).hostTurn (.write 2 0x07#8) [] :=
  ⟨⟨_, rfl⟩, rfl, by decide, Nat.le_refl _, full_turn _⟩

theorem witness_InputBeyondCapacityStops :
    ({ State.reset with ilen := Config.ibufCap + 1 } : State).iovf = false ∧
      Config.ibufCap < ({ State.reset with ilen := Config.ibufCap + 1 } : State).ilen :=
  ⟨rfl, Nat.lt_succ_self _⟩

theorem witness_ErrorLeavesOnlyItsCode :
    (∃ t, exec .dss (ready 0x01#8 []) = .next t ∧ t.status ≠ .ok) ∧
    ((ready 0x00#8 []).blockTurn = true ∧ ∃ t, step (ready 0x00#8 []) = .next t ∧ t.status ≠ .ok) :=
  ⟨⟨_, rfl, by decide⟩, rfl, _, rfl, by decide⟩

theorem witness_InstructionFrame : ∃ t, exec .dtxSel0 (ready 0x03#8 [0x00#8, 0x41#8]) = .next t := ⟨_, rfl⟩

theorem witness_ResultsDependOnInputOnly :
    (ready 0x02#8 [0x07#8]).blockTurn = true ∧ (ready 0x02#8 [0x07#8]).flagProtocolError.blockTurn = true ∧
    (ready 0x02#8 [0x07#8]).flagProtocolError.lcmd = (ready 0x02#8 [0x07#8]).lcmd ∧
    (ready 0x02#8 [0x07#8]).flagProtocolError.ilen = (ready 0x02#8 [0x07#8]).ilen ∧
    (ready 0x02#8 [0x07#8]).flagProtocolError.iovf = (ready 0x02#8 [0x07#8]).iovf ∧
    (∀ a, a < (ready 0x02#8 [0x07#8]).ilen →
      (ready 0x02#8 [0x07#8]).flagProtocolError.inByte a = (ready 0x02#8 [0x07#8]).inByte a) ∧
    ∃ t, step (ready 0x02#8 [0x07#8]) = .next t :=
  ⟨rfl, rfl, rfl, rfl, rfl, fun _ _ => rfl, _, rfl⟩

theorem witness_MemReadIsBigEndianSum : 1 + 2 ≤ [0x01#8, 0x02#8, 0x03#8].length := by decide

theorem witness_CodeUnitsFollowByteOrder : [0x00#8, 0x41#8].length = 2 * 1 ∧ 0 < 1 := by decide

/-- Four bytes and five, the two cases of the value. -/
theorem witness_DssValue :
    ((ready 0x01#8 [0x00#8, 0x00#8, 0x02#8, 0x01#8]).iovf = false ∧ 4 ≤ (ready 0x01#8 [0x00#8, 0x00#8, 0x02#8, 0x01#8]).ilen ∧
      (ready 0x01#8 [0x00#8, 0x00#8, 0x02#8, 0x01#8]).ilen ≤ Config.ibufCap) ∧
    ((ready 0x01#8 [0x0F#8, 0x7F#8, 0x7F#8, 0x7F#8, 0x7F#8]).iovf = false ∧
      4 < (ready 0x01#8 [0x0F#8, 0x7F#8, 0x7F#8, 0x7F#8, 0x7F#8]).ilen ∧
      (ready 0x01#8 [0x0F#8, 0x7F#8, 0x7F#8, 0x7F#8, 0x7F#8]).ilen ≤ Config.ibufCap) := by decide

/-- Two inputs that differ in bit 7 of the last byte only, and the two inputs of R91. -/
theorem witness_DssIgnoresBitSeven :
    ((ready 0x01#8 [0x00#8, 0x00#8, 0x00#8, 0x80#8]).iovf = false ∧ (ready 0x01#8 [0x00#8, 0x00#8, 0x00#8, 0x00#8]).iovf = false ∧
      4 ≤ (ready 0x01#8 [0x00#8, 0x00#8, 0x00#8, 0x80#8]).ilen ∧
      (ready 0x01#8 [0x00#8, 0x00#8, 0x00#8, 0x80#8]).ilen ≤ Config.ibufCap ∧
      (ready 0x01#8 [0x00#8, 0x00#8, 0x00#8, 0x00#8]).ilen = (ready 0x01#8 [0x00#8, 0x00#8, 0x00#8, 0x80#8]).ilen ∧
      (∀ a < 0, (ready 0x01#8 [0x00#8, 0x00#8, 0x00#8, 0x00#8]).inByte a = (ready 0x01#8 [0x00#8, 0x00#8, 0x00#8, 0x80#8]).inByte a) ∧
      ∀ a < 4, ((ready 0x01#8 [0x00#8, 0x00#8, 0x00#8, 0x00#8]).inByte a).toNat % 128 =
        ((ready 0x01#8 [0x00#8, 0x00#8, 0x00#8, 0x80#8]).inByte a).toNat % 128) ∧
    (ready 0x01#8 [0x80#8, 0x80#8, 0x80#8, 0x80#8]).input = [0x80#8, 0x80#8, 0x80#8, 0x80#8] ∧
    (ready 0x01#8 [0xFF#8, 0xFF#8, 0xFF#8, 0xFF#8]).input = [0xFF#8, 0xFF#8, 0xFF#8, 0xFF#8] :=
  ⟨by decide, by decide, by decide⟩

theorem witness_DssRejectsShortInput : (ready 0x01#8 [0x00#8, 0x00#8, 0x03#8]).iovf = false ∧
    (ready 0x01#8 [0x00#8, 0x00#8, 0x03#8]).ilen < 4 := by decide

theorem witness_DssInvertsEnc28 : (ready 0x01#8 (enc28 0xFFFFFFF#28)).iovf = false ∧
    (ready 0x01#8 (enc28 0xFFFFFFF#28)).input = enc28 0xFFFFFFF#28 ∧ (ready 0x01#8 (enc28 0xFFFFFFF#28)).ilen = 4 := by decide

theorem witness_FourByteSizeIsBelow28Bits : (ready 0x01#8 [0x7F#8, 0x7F#8, 0x7F#8, 0x7F#8]).iovf = false ∧
    (ready 0x01#8 [0x7F#8, 0x7F#8, 0x7F#8, 0x7F#8]).ilen = 4 := by decide

theorem witness_DbeDecodesWholeInput :
    ((ready 0x02#8 [0x01#8, 0x00#8, 0x00#8, 0x00#8]).iovf = false ∧ (ready 0x02#8 [0x01#8, 0x00#8, 0x00#8, 0x00#8]).ilen ≤ Config.ibufCap ∧
      (ready 0x02#8 [0x01#8, 0x00#8, 0x00#8, 0x00#8]).ilen ≤ 4) ∧
    ((ready 0x02#8 [0x00#8, 0x00#8, 0x00#8, 0x00#8, 0x01#8]).iovf = false ∧
      (ready 0x02#8 [0x00#8, 0x00#8, 0x00#8, 0x00#8, 0x01#8]).ilen ≤ Config.ibufCap ∧
      4 < (ready 0x02#8 [0x00#8, 0x00#8, 0x00#8, 0x00#8, 0x01#8]).ilen) := by decide

theorem witness_IntegerCommandsAgreeOnSmallBytes : (ready 0x01#8 [0x00#8, 0x00#8, 0x02#8, 0x7F#8]).iovf = false ∧
    (ready 0x01#8 [0x00#8, 0x00#8, 0x02#8, 0x7F#8]).input = [0x00#8, 0x00#8, 0x02#8, 0x7F#8] ∧
    (0x02#8 : Byte).toNat < 128 ∧ (0x7F#8 : Byte).toNat < 128 := by decide

theorem witness_DtxRejectsEmptyInput : (ready 0x03#8 []).iovf = false ∧ (ready 0x03#8 []).ilen = 0 := by decide

theorem witness_DtxRunsItsSelectorRow : 0 < (ready 0x03#8 [0x02#8]).ilen := by decide

/-- The row and the command `DTX`, on an input of the selector alone. -/
theorem witness_Selector0CopiesPayload : (ready 0x03#8 [0x00#8]).iovf = false ∧ 0 < (ready 0x03#8 [0x00#8]).ilen ∧
    (ready 0x03#8 [0x00#8]).ilen ≤ Config.ibufCap ∧
    dtxWith [.dtxSel0] (fun b => b == 0x00#8) (ready 0x03#8 [0x00#8]) .dtxSel0 ∧
    dtxWith [.dtxSel0] (fun b => b == 0x00#8) (ready 0x03#8 [0x00#8]) .dtx :=
  ⟨rfl, by decide, by decide, .inl (by simp), .inr ⟨rfl, rfl⟩⟩

theorem witness_Selector3CopiesPayload : (ready 0x03#8 [0x03#8, 0xFF#8]).iovf = false ∧ 0 < (ready 0x03#8 [0x03#8, 0xFF#8]).ilen ∧
    (ready 0x03#8 [0x03#8, 0xFF#8]).ilen ≤ Config.ibufCap ∧
    dtxWith [.dtxSel3] (fun b => b == 0x03#8) (ready 0x03#8 [0x03#8, 0xFF#8]) .dtxSel3 ∧
    dtxWith [.dtxSel3] (fun b => b == 0x03#8) (ready 0x03#8 [0x03#8, 0xFF#8]) .dtx :=
  ⟨rfl, by decide, by decide, .inl (by simp), .inr ⟨rfl, rfl⟩⟩

theorem witness_OtherSelectorsGiveEmptyText : (ready 0x03#8 [0x04#8]).iovf = false ∧ 0 < (ready 0x03#8 [0x04#8]).ilen ∧
    (ready 0x03#8 [0x04#8]).ilen ≤ Config.ibufCap ∧ isOther (.dtxOther04 0x04#8) = true ∧
    4 ≤ ((ready 0x03#8 [0x04#8]).inByte 0).toNat := by decide

/-- A pair without a mark, and one unit after a big-endian mark. -/
theorem witness_Utf16TextDecodes :
    ((ready 0x03#8 [0x01#8, 0x3D#8, 0xD8#8, 0x00#8, 0xDE#8]).iovf = false ∧
      (ready 0x03#8 [0x01#8, 0x3D#8, 0xD8#8, 0x00#8, 0xDE#8]).ilen ≤ Config.ibufCap ∧ scalarText [0x1F600#21] ∧
      dtxWith [.dtxSel1, .dtxSel2] (fun b => b == 0x01#8 || b == 0x02#8) (ready 0x03#8 [0x01#8, 0x3D#8, 0xD8#8, 0x00#8, 0xDE#8]) .dtx ∧
      (ready 0x03#8 [0x01#8, 0x3D#8, 0xD8#8, 0x00#8, 0xDE#8]).input = 0x01#8 :: utf16Bytes false [0x1F600#21] ∧
      ∀ be, (utf16Bytes false [0x1F600#21]).take 2 ≠ markBytes be) ∧
    ((ready 0x03#8 [0x02#8, 0xFE#8, 0xFF#8, 0x00#8, 0x41#8]).iovf = false ∧
      (ready 0x03#8 [0x02#8, 0xFE#8, 0xFF#8, 0x00#8, 0x41#8]).ilen ≤ Config.ibufCap ∧ scalarText [0x41#21] ∧
      dtxWith [.dtxSel1, .dtxSel2] (fun b => b == 0x01#8 || b == 0x02#8) (ready 0x03#8 [0x02#8, 0xFE#8, 0xFF#8, 0x00#8, 0x41#8]) .dtxSel2 ∧
      (ready 0x03#8 [0x02#8, 0xFE#8, 0xFF#8, 0x00#8, 0x41#8]).input = 0x02#8 :: (markBytes true ++ utf16Bytes true [0x41#21])) :=
  ⟨⟨rfl, by decide, by simp [scalarText, isScalar], .inr ⟨rfl, rfl⟩, by decide, by decide⟩,
    ⟨rfl, by decide, by simp [scalarText, isScalar], .inl (by simp), by decide⟩⟩

theorem witness_Utf16SucceedsExactlyOnText : (ready 0x03#8 [0x01#8, 0x3D#8, 0xD8#8]).iovf = false ∧
    (ready 0x03#8 [0x01#8, 0x3D#8, 0xD8#8]).ilen ≤ Config.ibufCap ∧
    dtxWith [.dtxSel1, .dtxSel2] (fun b => b == 0x01#8 || b == 0x02#8) (ready 0x03#8 [0x01#8, 0x3D#8, 0xD8#8]) .dtx ∧
    (ready 0x03#8 [0x01#8, 0x3D#8, 0xD8#8]).input = 0x01#8 :: [0x3D#8, 0xD8#8] ∧ [0x3D#8, 0xD8#8].length % 2 = 0 :=
  ⟨rfl, by decide, .inr ⟨rfl, rfl⟩, by decide, by decide⟩

/-- The three cases of R122: the high surrogate last, before an ordinary unit, and a low surrogate alone. -/
theorem witness_UnpairedSurrogateFails :
    ((ready 0x03#8 [0x01#8, 0x3D#8, 0xD8#8]).iovf = false ∧ (ready 0x03#8 [0x01#8, 0x3D#8, 0xD8#8]).ilen ≤ Config.ibufCap ∧
      dtxWith [.dtxSel1, .dtxSel2] (fun b => b == 0x01#8 || b == 0x02#8) (ready 0x03#8 [0x01#8, 0x3D#8, 0xD8#8]) .dtxSel1 ∧
      (ready 0x03#8 [0x01#8, 0x3D#8, 0xD8#8]).input = 0x01#8 :: [0x3D#8, 0xD8#8] ∧
      codeUnits (splitMark [0x3D#8, 0xD8#8]).1 (splitMark [0x3D#8, 0xD8#8]).2 = [] ++ [0xD83D#16] ∧ isHigh 0xD83D#16 = true) ∧
    ((ready 0x03#8 [0x01#8, 0x3D#8, 0xD8#8, 0x41#8, 0x00#8]).iovf = false ∧
      (ready 0x03#8 [0x01#8, 0x3D#8, 0xD8#8, 0x41#8, 0x00#8]).ilen ≤ Config.ibufCap ∧
      (ready 0x03#8 [0x01#8, 0x3D#8, 0xD8#8, 0x41#8, 0x00#8]).input = 0x01#8 :: [0x3D#8, 0xD8#8, 0x41#8, 0x00#8] ∧
      codeUnits (splitMark [0x3D#8, 0xD8#8, 0x41#8, 0x00#8]).1 (splitMark [0x3D#8, 0xD8#8, 0x41#8, 0x00#8]).2 =
        [] ++ [0xD83D#16, 0x0041#16] ∧ isHigh 0xD83D#16 = true ∧ isLow 0x0041#16 = false) ∧
    ((ready 0x03#8 [0x01#8, 0x41#8, 0x00#8, 0x00#8, 0xDE#8]).iovf = false ∧
      (ready 0x03#8 [0x01#8, 0x41#8, 0x00#8, 0x00#8, 0xDE#8]).ilen ≤ Config.ibufCap ∧
      (ready 0x03#8 [0x01#8, 0x41#8, 0x00#8, 0x00#8, 0xDE#8]).input = 0x01#8 :: [0x41#8, 0x00#8, 0x00#8, 0xDE#8] ∧
      scalarText [0x41#21] ∧
      codeUnits (splitMark [0x41#8, 0x00#8, 0x00#8, 0xDE#8]).1 (splitMark [0x41#8, 0x00#8, 0x00#8, 0xDE#8]).2 =
        [0x41#21].flatMap unitsOfElem ++ [0xDE00#16] ∧ isLow 0xDE00#16 = true) :=
  ⟨⟨rfl, by decide, .inl (by simp), by decide, by decide, by decide⟩,
    ⟨rfl, by decide, by decide, by decide, by decide, by decide⟩,
    ⟨rfl, by decide, by decide, by simp [scalarText, isScalar], by decide, by decide⟩⟩

theorem witness_OddPayloadFails : (ready 0x03#8 [0x01#8, 0xFE#8]).iovf = false ∧ 0 < (ready 0x03#8 [0x01#8, 0xFE#8]).ilen ∧
    (ready 0x03#8 [0x01#8, 0xFE#8]).ilen ≤ Config.ibufCap ∧ ((ready 0x03#8 [0x01#8, 0xFE#8]).ilen - 1) % 2 = 1 ∧
    dtxWith [.dtxSel1, .dtxSel2] (fun b => b == 0x01#8 || b == 0x02#8) (ready 0x03#8 [0x01#8, 0xFE#8]) .dtxSel1 :=
  ⟨rfl, by decide, by decide, by decide, .inl (by simp)⟩

theorem witness_Selector2IsSelector1 :
    (0 < (ready 0x03#8 [0x02#8]).ilen ∧ (ready 0x03#8 [0x02#8]).inByte 0 = 0x02#8) ∧
    ((ready 0x03#8 [0x02#8, 0x00#8, 0x41#8]).iovf = false ∧
      dtxWith [.dtxSel2] (fun b => b == 0x02#8) (ready 0x03#8 [0x02#8, 0x00#8, 0x41#8]) .dtx ∧
      (ready 0x03#8 [0x02#8, 0x00#8, 0x41#8]).input = [0x02#8, 0x00#8, 0x41#8] ∧ (∀ be, [0x00#8, 0x41#8] ≠ markBytes be) ∧
      isHigh (0x41#8 ++ 0x00#8) = false ∧ isLow (0x41#8 ++ 0x00#8) = false) :=
  ⟨by decide, rfl, .inr ⟨rfl, rfl⟩, by decide, by decide, by decide, by decide⟩

theorem witness_SurrogatePairFormula : isHigh 0xD800#16 = true ∧ isLow 0xDFFF#16 = true := by decide

theorem witness_OutputFitsItsBuffer :
    (∃ t, exec .dtxSel1 (ready 0x03#8 [0x01#8, 0x41#8, 0x00#8]) = .next t) ∧
    (∃ t, exec (.dtxOther04 0x04#8) (ready 0x03#8 [0x04#8]) = .next t) ∧ isOther (.dtxOther04 0x04#8) = true ∧
    (ready 0x03#8 [0x01#8, 0x41#8, 0x00#8]).ilen ≤ Config.ibufCap ∧ (ready 0x03#8 [0x04#8]).ilen ≤ Config.ibufCap :=
  ⟨⟨_, rfl⟩, ⟨_, rfl⟩, by decide, by decide, by decide⟩

/-- Busy; room for one more byte; full. -/
theorem witness_PushAppendsByte :
    ((busy (.write 2 0x42#8)).hostTurn (.write 2 0x42#8) [] ∧ (busy (.write 2 0x42#8)).phase = .busy) ∧
    ((idle (.write 2 0x42#8)).hostTurn (.write 2 0x42#8) [] ∧ (idle (.write 2 0x42#8)).phase ≠ .busy ∧
      (idle (.write 2 0x42#8)).ilen < Config.ibufCap) ∧
    ((full (.write 2 0x42#8)).hostTurn (.write 2 0x42#8) [] ∧ (full (.write 2 0x42#8)).phase ≠ .busy ∧
      Config.ibufCap ≤ (full (.write 2 0x42#8)).ilen) :=
  ⟨⟨busy_turn _, rfl⟩, ⟨idle_turn _, by decide, by decide⟩, ⟨full_turn _, by decide, Nat.le_refl _⟩⟩

theorem witness_ClearEmptiesInput :
    ((busy (.write 3 0xFF#8)).hostTurn (.write 3 0xFF#8) [] ∧ (busy (.write 3 0xFF#8)).phase = .busy) ∧
    ((full (.write 3 0x00#8)).hostTurn (.write 3 0x00#8) [] ∧ (full (.write 3 0x00#8)).phase ≠ .busy) :=
  ⟨⟨busy_turn _, rfl⟩, ⟨full_turn _, by decide⟩⟩

theorem witness_CommandWriteIsAccepted :
    ((busy (.write 1 0x01#8)).hostTurn (.write 1 0x01#8) [] ∧ (busy (.write 1 0x01#8)).phase = .busy) ∧
    ((idle (.write 1 0xFF#8)).hostTurn (.write 1 0xFF#8) [] ∧ (idle (.write 1 0xFF#8)).phase ≠ .busy) :=
  ⟨⟨busy_turn _, rfl⟩, ⟨idle_turn _, by decide⟩⟩

/-- The read-only registers at the ends of both ranges, the write-only ones, and the first number outside the interface. -/
theorem witness_WrongDirectionAndUnknownRegisters :
    (busy (.write 0 0x01#8)).hostTurn (.write 0 0x01#8) [] ∧
    (idle (.write 4 0x01#8)).hostTurn (.write 4 0x01#8) [] ∧ (idle (.write 10 0x01#8)).hostTurn (.write 10 0x01#8) [] ∧
    (idle (.read 2 0)).hostTurn (.read 2 0) [] ∧ (busy (.read 3 0)).hostTurn (.read 3 0) [] ∧
    ((idle (.write 11 0x00#8)).hostTurn (.write 11 0x00#8) [] ∧ (idle (.read 11 0)).hostTurn (.read 11 0) [] ∧ 10 < 11) :=
  ⟨busy_turn _, idle_turn _, idle_turn _, idle_turn _, busy_turn _, idle_turn _, idle_turn _, by decide⟩

theorem witness_ReadsValidInEveryPhase : (busy (.read 0 0)).hostTurn (.read 0 0) [] ∧ (idle (.read 1 0)).hostTurn (.read 1 0) [] ∧
    (full (.read 4 0)).hostTurn (.read 4 0) [] ∧ (finished (.read 5 0)).hostTurn (.read 5 0) [] :=
  ⟨busy_turn _, idle_turn _, full_turn _, finished_turn _⟩

theorem witness_ResultReadsByPhase :
    ((finished (.read 6 0)).hostTurn (.read 6 0) [] ∧ (finished (.read 6 0)).phase ≠ .busy) ∧
    ((busy (.read 9 0)).hostTurn (.read 9 0) [] ∧ (busy (.read 9 0)).phase = .busy) :=
  ⟨⟨finished_turn _, by decide⟩, ⟨busy_turn _, rfl⟩⟩

/-- The last element, and the first index past it. -/
theorem witness_OutReadsElements :
    ((finished (.read 10 0)).hostTurn (.read 10 0) [] ∧ (finished (.read 10 0)).phase ≠ .busy ∧ 0 < (finished (.read 10 0)).olen ∧
      (finished (.read 10 0)).outElem 0 = some 0x41#21) ∧
    ((finished (.read 10 1)).hostTurn (.read 10 1) [] ∧ (finished (.read 10 1)).olen ≤ 1) ∧
    ((busy (.read 10 0)).hostTurn (.read 10 0) [] ∧ (busy (.read 10 0)).phase = .busy) :=
  ⟨⟨finished_turn _, by decide, by decide, rfl⟩, ⟨finished_turn _, by decide⟩, ⟨busy_turn _, rfl⟩⟩

theorem witness_ResetSetsEveryRegister : (busy .reset).hostTurn .reset [] := busy_turn _

theorem witness_QuiescentBlockWaits : State.reset.phase ≠ .busy ∧ State.reset.script = [] := by decide

theorem witness_WaitPollsPhase :
    ((finished .wait).hostTurn .wait [] ∧ (finished .wait).phase = .done) ∧
    ((busy .wait).hostTurn .wait [] ∧ (busy .wait).phase ≠ .done) :=
  ⟨⟨finished_turn _, rfl⟩, ⟨busy_turn _, by decide⟩⟩

theorem idle_inv (sc : List Txn) : BlockInv { State.reset with script := sc } where
  input_listed := rfl
  output_listed := rfl
  ilen_le := Nat.zero_le _
  olen_le := Nat.zero_le _
  overflow_full := fun h => Bool.noConfusion h
  error_empty := fun _ _ => ⟨rfl, rfl, rfl⟩
  none_empty := fun _ _ => rfl
  bytes_small := fun _ _ i hi => absurd hi (Nat.not_lt_zero i)
  scalars_valid := fun _ _ i hi => absurd hi (Nat.not_lt_zero i)
  text_no_integer := fun _ _ => rfl
  idle_reset := fun _ => ⟨rfl, rfl, rfl, rfl, rfl⟩

theorem busy_inv (x : Txn) : BlockInv (busy x) where
  input_listed := rfl
  output_listed := rfl
  ilen_le := Nat.zero_le _
  olen_le := Nat.zero_le _
  overflow_full := fun h => Bool.noConfusion h
  error_empty := fun h => absurd rfl h
  none_empty := fun _ _ => rfl
  bytes_small := fun h => absurd rfl h
  scalars_valid := fun h => absurd rfl h
  text_no_integer := fun _ _ => rfl
  idle_reset := fun h => Phase.noConfusion h

theorem witness_StepKeepsInvariant : BlockInv (idle (.write 1 0x01#8)) ∧ ∃ t, step (idle (.write 1 0x01#8)) = .next t :=
  ⟨idle_inv _, _, rfl⟩

theorem witness_BlockNeverTraps : BlockInv (busy (.write 11 0x00#8)) := busy_inv _

/-- An accepted command, a completed one, and a reset. -/
theorem witness_PhaseChangesOnlyByRule :
    (∃ t, step (idle (.write 1 0x01#8)) = .next t ∧ t.phase ≠ (idle (.write 1 0x01#8)).phase) ∧
    (∃ t, step (ready 0x00#8 []) = .next t ∧ t.phase ≠ (ready 0x00#8 []).phase) ∧
    (∃ t, step (busy .reset) = .next t ∧ t.phase ≠ (busy .reset).phase) :=
  ⟨⟨_, rfl, by decide⟩, ⟨_, rfl, by decide⟩, ⟨_, rfl, by decide⟩⟩

theorem witness_ProtocolErrorIsSticky :
    ((∃ t, step (idle .wait).flagProtocolError = .next t) ∧ (idle .wait).flagProtocolError.herr = true) ∧
    ((∃ t, step (busy (.write 3 0x00#8)) = .next t) ∧ (busy (.write 3 0x00#8)).herr = false ∧
      (busy (.write 3 0x00#8)).phase = .busy ∧ (busy (.write 3 0x00#8)).hostTurn (.write 3 0x00#8) []) ∧
    (∃ t, exec .dbe (ready 0x02#8 [0x07#8]) = .next t) :=
  ⟨⟨⟨_, rfl⟩, rfl⟩, ⟨⟨_, rfl⟩, rfl, rfl, busy_turn _⟩, ⟨_, rfl⟩⟩

theorem witness_CommandAndLengthHaveOneWriter :
    (∃ t, step (idle (.write 1 0x01#8)) = .next t ∧ t.lcmd ≠ (idle (.write 1 0x01#8)).lcmd) ∧
    (∃ t, step (idle (.write 2 0x01#8)) = .next t ∧ t.ilen ≠ (idle (.write 2 0x01#8)).ilen) :=
  ⟨⟨_, rfl, by decide⟩, ⟨_, rfl, by decide⟩⟩

theorem witness_BusyIsFinite : BlockInv (busy .wait) ∧ (busy .wait).phase = .busy ∧
    ∀ x ∈ (busy .wait).script, x.known = true :=
  ⟨busy_inv _, rfl, by decide⟩

theorem witness_LoadAndRunComputesExec :
    BlockInv { State.reset with script := assemble (loadLines [0x07#8] ++ runLines (.cmd 0x02#8)) ++ [] } ∧
    ({ State.reset with script := assemble (loadLines [0x07#8] ++ runLines (.cmd 0x02#8)) ++ [] } : State).phase ≠ .busy :=
  ⟨idle_inv _, by decide⟩

theorem witness_TextScriptReadsBackText :
    BlockInv { State.reset with script := assemble (textLines [0x00#8, 0x41#8]) } ∧
    ({ State.reset with script := assemble (textLines [0x00#8, 0x41#8]) } : State).phase ≠ .busy ∧
    [0x00#8, 0x41#8].length ≤ Config.ibufCap :=
  ⟨idle_inv _, by decide, by decide⟩

/-- The header of P1. -/
theorem witness_HeaderDecodes :
    [0x49#8, 0x44#8, 0x33#8, 0x04#8, 0x00#8, 0x80#8, 0x00#8, 0x00#8, 0x02#8, 0x01#8].length = 10 := by decide

theorem witness_HeaderTakesTenBytes : (List.replicate 9 0x00#8).length < 10 ∧ 10 ≤ (List.replicate 10 0x00#8).length := by decide

theorem witness_NullIdentifierEndsFrames : frameLayout 0x02#8 = some ⟨6, 3, 3, 0x02#8⟩ ∧ 6 ≤ (List.replicate 6 0x00#8).length ∧
    (List.replicate 6 0x00#8).head? = some 0x00#8 := by decide

/-- The frame of P4. -/
theorem witness_FrameTakesHeaderAndSize : frameLayout 0x02#8 = some ⟨6, 3, 3, 0x02#8⟩ ∧
    readFrame ⟨6, 3, 3, 0x02#8⟩ [0x54#8, 0x54#8, 0x32#8, 0x00#8, 0x00#8, 0x03#8, 0x00#8, 0x48#8, 0x69#8] =
      .ok (⟨[0x54#8, 0x54#8, 0x32#8], [0x00#8, 0x48#8, 0x69#8]⟩, []) :=
  ⟨by decide, by rfl⟩

theorem witness_FrameSequenceIsFinite : frameLayout 0x04#8 = some ⟨10, 4, 4, 0x01#8⟩ := by decide

/-- A buffer that decodes, with an index past the table, and one that does not. -/
theorem witness_V1FailsOnlyWithoutTag :
    ((∃ tag, decodeV1 [] ([0x54#8, 0x41#8, 0x47#8] ++ List.replicate 125 0xFF#8) = .ok tag) ∧
      ([] : List String).length ≤ (([0x54#8, 0x41#8, 0x47#8] ++ List.replicate 125 0xFF#8).getD 127 0).toNat) ∧
    decodeV1 [] [] = .error .noTag :=
  ⟨⟨⟨_, if_neg (by simp [slice])⟩, Nat.zero_le _⟩, if_pos (by simp)⟩

end Sys2Proof.Tests
end

section
/-! SUPPORT. What the block's step writes is a function of the latched command and its input (00_scope.md R5). -/

namespace Sys2Proof.Machine

theorem completeStep_of_decode_ok {s : State} {i : Instr} (h : decode s.fetchBytes = .ok i) :
    completeStep s = exec i s := by
  simp [completeStep, h]

theorem completeStep_of_decode_error {s : State} {e : DecodeError} (h : decode s.fetchBytes = .error e) :
    completeStep s = .next (s.complete (errorResult .illegalCmd)) := by
  simp [completeStep, h, State.raise]

/-- What a command depends on (R5): `LCMD`, `ILEN`, `IOVF` and `IBUF[0 .. ILEN-1]` are the same in both states. -/
structure SameInput (s s' : State) : Prop where
  lcmd_eq : s'.lcmd = s.lcmd
  ilen_eq : s'.ilen = s.ilen
  iovf_eq : s'.iovf = s.iovf
  bytes_eq : ∀ a, a < s.ilen → s'.inByte a = s.inByte a

variable {s s' t : State}

theorem SameInput.input_eq (h : SameInput s s') : s'.input = s.input :=
  input_congr h.ilen_eq h.bytes_eq

/-- The fetch reads `IBUF[0]` only when it is part of the input (R80). -/
theorem SameInput.fetchBytes_eq (h : SameInput s s') : s'.fetchBytes = s.fetchBytes := by
  rcases Nat.eq_zero_or_pos s.ilen with hz | hp
  · rw [fetchBytes_empty hz, fetchBytes_empty (h.ilen_eq.trans hz), h.lcmd_eq]
  · rw [fetchBytes_cons hp, fetchBytes_cons (h.ilen_eq ▸ hp), h.lcmd_eq, h.bytes_eq 0 hp]

/-- A legal command completes both states with the same result. -/
theorem SameInput.runLegal_next (h : SameInput s s') {f : List Byte → Result} (hs : runLegal f s = .next t) :
    ∃ r, t = s.complete r ∧ runLegal f s' = .next (s'.complete r) := by
  rcases runLegal_cases hs with ⟨hv, ht⟩ | ⟨hv, hc, ht⟩
  · exact ⟨_, ht, runLegal_overflow f (h.iovf_eq.trans hv)⟩
  · refine ⟨_, ht, ?_⟩
    rw [runLegal_runs f (h.iovf_eq.trans hv) (h.ilen_eq.trans_le hc), h.input_eq]

/-- The block's step, on a legal word or an illegal one, completes both states with the same result. -/
theorem SameInput.completeStep_next (h : SameInput s s') (hs : completeStep s = .next t) :
    ∃ r, t = s.complete r ∧ completeStep s' = .next (s'.complete r) := by
  cases hd : decode s.fetchBytes with
  | ok i =>
    have hd' : decode s'.fetchBytes = .ok i := h.fetchBytes_eq ▸ hd
    rw [completeStep_of_decode_ok hd, exec_eq_runLegal] at hs
    rw [completeStep_of_decode_ok hd', exec_eq_runLegal]
    exact h.runLegal_next hs
  | error e =>
    have hd' : decode s'.fetchBytes = .error e := h.fetchBytes_eq ▸ hd
    rw [completeStep_of_decode_error hd] at hs
    exact ⟨_, (Host.Outcome.next.inj hs).symm, completeStep_of_decode_error hd'⟩

end Sys2Proof.Machine
end

section
open Sys2Proof.Machine

/-- Settles O14: with the same command and input, the block's step completes both states with one and the same result,
and what it writes is that result. -/
theorem resultsDependOnInputOnly : Obligations.ResultsDependOnInputOnly := by
  intro s s' t hb hb' hcmd hlen hovf hbytes hs
  have hsame : SameInput s s' := ⟨hcmd, hlen, hovf, hbytes⟩
  rw [step_block hb] at hs
  obtain ⟨r, rfl, hs'⟩ := hsame.completeStep_next hs
  exact ⟨s'.complete r, (step_block hb').trans hs', rfl, rfl, rfl, rfl, fun _ _ => rfl⟩

end

section
/-! SUPPORT. What a host transaction on a register does in the host's turn (10_state.md R24 to R29), and what a step does to
`HERR` (R17). -/

namespace Sys2Proof.Machine

variable {s t : State} {r : Reg} {d : Byte} {x y : Txn} {rest rest' : List Txn}

/-- The next transaction of the script is unique. -/
theorem hostTurn_unique (h : s.hostTurn x rest) (h' : s.hostTurn y rest') : y = x := by
  obtain ⟨_, hs⟩ := h
  obtain ⟨_, hs'⟩ := h'
  exact (List.cons.inj (hs'.symm.trans hs)).1

/-! ### Writes -/

theorem step_hostWrite (h : s.hostTurn (.write r.number d) rest) : step s = .next (s.turn.hostWrite r d) := by
  rw [hostTurn_step h]
  simp only [hostStep, regOfNumber_eq_some.mpr rfl]

theorem hostWrite_busy (hr : r = .inpush ∨ r = .inclr ∨ r = .cmd) (hb : s.phase = .busy) (d : Byte) :
    s.hostWrite r d = s.flagProtocolError := by
  rcases hr with rfl | rfl | rfl <;> exact if_pos hb

theorem hostWrite_inpush_room (hb : s.phase ≠ .busy) (hc : s.ilen < Config.ibufCap) (d : Byte) :
    s.hostWrite .inpush d = s.appendByte d :=
  (if_neg hb).trans (if_pos hc)

theorem hostWrite_inpush_full (hb : s.phase ≠ .busy) (hc : Config.ibufCap ≤ s.ilen) (d : Byte) :
    s.hostWrite .inpush d = s.flagOverflow :=
  (if_neg hb).trans (if_neg hc.not_gt)

theorem hostWrite_inclr (hb : s.phase ≠ .busy) (d : Byte) : s.hostWrite .inclr d = s.emptyInput :=
  if_neg hb

/-- In `BUSY` a write of `INPUSH`, `INCLR` or `CMD` only sets `HERR` (R24, R25, R26). -/
theorem step_write_in_busy (hr : r = .inpush ∨ r = .inclr ∨ r = .cmd) (h : s.hostTurn (.write r.number d) rest)
    (hb : s.phase = .busy) :
    step s = .next { s with script := rest, delay := s.delay - 1, herr := true } := by
  rw [step_hostWrite h, hostWrite_busy hr (s := s.turn) hb, hostTurn_tail h]
  rfl

/-- A host write leaves `HERR` set exactly when it was set, or the block is busy and the register is 1, 2 or 3. -/
theorem hostWrite_herr (s : State) (r : Reg) (d : Byte) :
    (s.hostWrite r d).herr = true ↔
      s.herr = true ∨ s.phase = .busy ∧ (r.number = 1 ∨ r.number = 2 ∨ r.number = 3) := by
  rcases hostWrite_cases s r d with ⟨hb, hr, he⟩ | ⟨hb, -, -, he⟩ | ⟨hb, -, -, he⟩ | ⟨hb, -, he⟩ | ⟨hb, -, he⟩ |
    ⟨h₁, h₂, h₃, he⟩ <;> rw [he]
  · rcases hr with rfl | rfl | rfl <;> simp [hb, Reg.number]
  · simp [hb]
  · simp [hb]
  · simp [hb]
  · simp [hb]
  · cases r <;> simp_all [Reg.number]

/-! ### Reads -/

theorem step_hostRead {i : Nat} (h : s.hostTurn (.read r.number i) rest) : step s = .next (s.turn.hostRead r i) := by
  rw [hostTurn_step h]
  simp only [hostStep, regOfNumber_eq_some.mpr rfl]

/-- What a read returns does not depend on the host's side. -/
theorem readValue_turn (s : State) (r : Reg) (i : Nat) : s.turn.readValue r i = s.readValue r i := by
  cases r <;> rfl

/-- A read with a specified value delivers it and does nothing else. -/
theorem step_read_specified {i v : Nat} (h : s.hostTurn (.read r.number i) rest) (hv : s.readValue r i = some v) :
    step s = .next { s with script := rest, delay := s.delay - 1, reads := ⟨r, i, v⟩ :: s.reads } := by
  rw [step_hostRead h, State.hostRead, readValue_turn, hv, hostTurn_tail h]
  rfl

/-- `FLAGS` is `HERR` above `IOVF` (R11). -/
theorem flags_toNat (s : State) : s.flags.toNat = 2 * s.herr.toNat + s.iovf.toNat := by
  unfold State.flags
  cases s.herr <;> cases s.iovf <;> rfl

/-! ### `HERR` over every step -/

/-- The host's next transaction is one that `BUSY` forbids (R17): a write of `CMD`, `INPUSH` or `INCLR`. -/
def State.protocolError (s : State) : Prop :=
  s.phase = .busy ∧ ∃ n d rest, (n = 1 ∨ n = 2 ∨ n = 3) ∧ s.hostTurn (.write n d) rest

theorem protocolError_write {n : Nat} (h : s.hostTurn (.write n d) rest) :
    s.protocolError ↔ s.phase = .busy ∧ (n = 1 ∨ n = 2 ∨ n = 3) := by
  constructor
  · rintro ⟨hb, m, e, rest', hm, h'⟩
    cases hostTurn_unique h h'
    exact ⟨hb, hm⟩
  · rintro ⟨hb, hn⟩
    exact ⟨hb, n, d, rest, hn, h⟩

theorem not_protocolError (h : s.hostTurn x rest) (hx : ∀ n d, x ≠ .write n d) : ¬ s.protocolError := by
  rintro ⟨-, n, d, rest', -, h'⟩
  exact hx n d (hostTurn_unique h h').symm

/-- What a transaction does to `HERR`: `Reset` clears it, and otherwise it is set exactly when it was set or the transaction
is a protocol error. -/
theorem hostStep_herr (h : s.hostTurn x rest) (hs : hostStep x s = .next t) :
    (x = .reset ∧ t.herr = false) ∨ (t.herr = true ↔ s.herr = true ∨ s.protocolError) := by
  rcases hostStep_cases hs with ⟨n, d, r, rfl, hr, rfl⟩ | ⟨n, i, r, rfl, -, rfl⟩ | ⟨rfl, -, rfl⟩ | ⟨rfl, -, rfl⟩ |
    ⟨rfl, rfl⟩ | ⟨rfl, rfl⟩
  · right
    rw [hostWrite_herr, protocolError_write h, regOfNumber_eq_some.mp hr]
    rfl
  · obtain ⟨v, k, hread⟩ := hostRead_eq s.turn r i
    simp [hread, not_protocolError h nofun]
  · simp [not_protocolError h nofun]
  · simp [not_protocolError h nofun]
  · simp [not_protocolError h nofun]
  · exact .inl ⟨rfl, rfl⟩

/-- The same of any step: the block's own and the quiescent one keep `HERR`. -/
theorem step_herr (hs : step s = .next t) :
    ((∃ rest, s.hostTurn .reset rest) ∧ t.herr = false) ∨ (t.herr = true ↔ s.herr = true ∨ s.protocolError) := by
  rcases step_cases hs with ⟨hb, rfl⟩ | ⟨-, hnil, rfl⟩ | ⟨hb, x, rest, hx, hstep⟩
  · have hn : ¬ s.protocolError := fun ⟨_, _, _, _, _, hb', _⟩ => by simp [hb] at hb'
    simp [hn]
  · have hn : ¬ t.protocolError := fun ⟨_, _, _, _, _, _, hs'⟩ => by simp [hnil] at hs'
    simp [hn]
  · rcases hostStep_herr ⟨hb, hx⟩ hstep with ⟨rfl, hc⟩ | hiff
    · exact .inl ⟨⟨rest, hb, hx⟩, hc⟩
    · exact .inr hiff

/-- An instruction reads and writes nothing of `HERR`: it commutes with setting the flag to any value. -/
theorem exec_herr {i : Instr} (b : Bool) (hs : exec i s = .next t) :
    exec i { s with herr := b } = .next { t with herr := b } := by
  have hsame : SameInput s { s with herr := b } := ⟨rfl, rfl, rfl, fun _ _ => rfl⟩
  rw [exec_eq_runLegal] at hs ⊢
  obtain ⟨result, rfl, hs'⟩ := hsame.runLegal_next hs
  exact hs'

end Sys2Proof.Machine
end

section
open Sys2Proof.Machine

/-- Settles O36, by R24's three cases: dropped in `BUSY`, appended with room, an overflow otherwise. -/
theorem pushAppendsByte : Obligations.PushAppendsByte := by
  intro s b rest h
  refine ⟨step_write_in_busy (r := .inpush) (.inl rfl) h, fun hb hc => ?_, fun hb hc => ?_⟩
  · refine ⟨Memory.write s.ibuf s.ilen b, ?_, Memory.read_write_same _ _ _, fun a ha => Memory.read_write_other _ _ ha⟩
    rw [step_hostWrite (r := .inpush) h, hostWrite_inpush_room (s := s.turn) hb hc, hostTurn_tail h]
    rfl
  · rw [step_hostWrite (r := .inpush) h, hostWrite_inpush_full (s := s.turn) hb hc, hostTurn_tail h]
    rfl

/-- Settles O37, by R25's two cases: dropped in `BUSY`, and the input emptied otherwise. -/
theorem clearEmptiesInput : Obligations.ClearEmptiesInput := by
  intro s d rest h
  refine ⟨step_write_in_busy (r := .inclr) (.inr (.inl rfl)) h, fun hb => ⟨[], ?_⟩⟩
  rw [step_hostWrite (r := .inclr) h, hostWrite_inclr (s := s.turn) hb, hostTurn_tail h]
  rfl

/-- Settles O40: each of the four registers has a specified value in every phase (R27). -/
theorem readsValidInEveryPhase : Obligations.ReadsValidInEveryPhase := by
  intro s n i rest h hn
  rcases hn with rfl | rfl | rfl | rfl
  · refine ⟨.phase, _, rfl, step_read_specified h rfl, fun _ => ?_, by simp, by simp, by simp⟩
    cases s.phase <;> rfl
  · exact ⟨.cmd, _, rfl, step_read_specified h rfl, by simp, fun _ => rfl, by simp, by simp⟩
  · exact ⟨.ilen, _, rfl, step_read_specified h rfl, by simp, by simp, fun _ => rfl, by simp⟩
  · exact ⟨.flags, _, rfl, step_read_specified h rfl, by simp, by simp, by simp, fun _ => flags_toNat s⟩

/-- Settles O50: the first two parts read off what a step does to `HERR`, the third from a command's input not holding
`HERR`. -/
theorem protocolErrorIsSticky : Obligations.ProtocolErrorIsSticky := by
  refine ⟨fun s t hs hset => ?_, fun s t hs hclear => ?_, fun i s b t => exec_herr b⟩
  · rcases step_herr hs with ⟨hreset, -⟩ | hiff
    · exact .inr hreset
    · exact .inl (hiff.mpr (.inl hset))
  · rcases step_herr hs with ⟨⟨rest, hreset⟩, hc⟩ | hiff
    · have hn : ¬ s.protocolError := not_protocolError hreset nofun
      exact ⟨fun ht => by simp [hc] at ht, fun he => absurd he hn⟩
    · have hset : t.herr = true ↔ s.protocolError := by simpa [hclear] using hiff
      exact hset

end

section
/-! SUPPORT. The big-endian sum of 20_memory.md R42, and `memRead` as that sum. -/

namespace Sys2Proof.Machine

/-- Appending a byte moves every earlier byte of the big-endian sum one place, that is eight bits, up. -/
theorem bigEndianSum_succ (b : Nat → Nat) (m : Nat) :
    ∑ j ∈ Finset.range (m + 1), b j * 2 ^ (8 * (m - j)) =
      (∑ j ∈ Finset.range m, b j * 2 ^ (8 * (m - 1 - j))) * 256 + b m := by
  have hup : ∀ j ∈ Finset.range m, b j * 2 ^ (8 * (m - j)) = b j * 2 ^ (8 * (m - 1 - j)) * 256 := by
    intro j hj
    have hplace : 8 * (m - j) = 8 * (m - 1 - j) + 8 := by
      have := Finset.mem_range.mp hj
      omega
    rw [hplace, pow_add, ← mul_assoc]
    norm_num
  rw [Finset.sum_range_succ, Finset.sum_congr rfl hup, ← Finset.sum_mul]
  simp

/-- R42's sum, for reads of any length within the bytes. -/
theorem memRead_eq_sum (bs : List Byte) (i m : Nat) (h : i + m ≤ bs.length) :
    memRead bs i m = ∑ j ∈ Finset.range m, (bs.getD (i + j) 0).toNat * 2 ^ (8 * (m - 1 - j)) := by
  induction m with
  | zero => simp
  | succ m ih =>
    rw [memRead_succ bs i m h, ih (by omega)]
    exact (bigEndianSum_succ (fun j => (bs.getD (i + j) 0).toNat) m).symm

end Sys2Proof.Machine
end

section
open Sys2Proof.Machine

/-- Settles O15, by induction on the number of bytes read: each byte more moves the ones before it one place up. -/
theorem memReadIsBigEndianSum : Obligations.MemReadIsBigEndianSum :=
  fun bs i m h => ⟨memRead_eq_sum bs i m h, memRead_zero bs i⟩

end

section
/-! SUPPORT. Selector 2 against selector 1 (30_encoding.md R72), and the UTF-16 path on a payload with no mark (R117). -/

namespace Sys2Proof.Machine

/-- A legal command depends on its function only through the value at the input. -/
theorem runLegal_congr {f g : List Byte → Result} {s : State} (h : f s.input = g s.input) :
    runLegal f s = runLegal g s := by
  simp only [runLegal, h]

/-- The dispatch of R110 takes selectors 1 and 2 to the UTF-16 path. -/
theorem dtxResult_utf16 {sel : Byte} (h : sel = 0x01#8 ∨ sel = 0x02#8) (pay : List Byte) :
    dtxResult (sel :: pay) = utf16Result pay := by
  rcases h with rfl | rfl <;> rfl

/-- `DTX` on an input that begins with selector 1 or 2 is the row of selector 1. -/
theorem exec_dtx_utf16 {s : State} (hp : 0 < s.ilen) (h : s.inByte 0 = 0x01#8 ∨ s.inByte 0 = 0x02#8) :
    exec .dtx s = exec .dtxSel1 s := by
  rw [exec_eq_runLegal, exec_eq_runLegal]
  apply runLegal_congr
  rw [input_cons hp]
  exact dtxResult_utf16 h _

/-- Without a mark the units are little-endian and the whole payload is text (R117). -/
theorem splitMark_unmarked {pay : List Byte} (h : ∀ be, pay.take 2 ≠ markBytes be) : splitMark pay = (false, pay) := by
  match pay with
  | [] => rfl
  | [_] => rfl
  | b₀ :: b₁ :: rest =>
    have hbig : ¬ (b₀ = 0xFE#8 ∧ b₁ = 0xFF#8) := by simpa [markBytes] using h true
    have hlittle : ¬ (b₀ = 0xFF#8 ∧ b₁ = 0xFE#8) := by simpa [markBytes] using h false
    simp only [splitMark, if_neg hbig, if_neg hlittle]

/-- Two bytes with no mark that form an ordinary unit are that one element, the second byte high. -/
theorem utf16Result_ordinary {a b : Byte} (hmark : ∀ be, [a, b] ≠ markBytes be) (hh : isHigh (b ++ a) = false)
    (hl : isLow (b ++ a) = false) : utf16Result [a, b] = textResult .scalar [(b ++ a).setWidth 21] := by
  have hunits : codeUnits false [a, b] = [b ++ a] := rfl
  have hscan : scanUnits [b ++ a] = some [(b ++ a).setWidth 21] := scanUnits_ordinary hh hl []
  have heven : [a, b].length % 2 = 0 := by simp
  have hsplit : splitMark [a, b] = (false, [a, b]) := splitMark_unmarked hmark
  rw [utf16Result_even heven, hsplit, hunits, hscan]

end Sys2Proof.Machine
end

section
open Sys2Proof Sys2Proof.Machine

/-- Settles O33: the two rows run one function, `DTX` dispatches both selectors to it, and it reads an unmarked unit
little-endian. -/
theorem selector2IsSelector1 : Obligations.Selector2IsSelector1 := by
  refine ⟨fun s => rfl, fun s hp hsel => exec_dtx_utf16 hp (.inr hsel), ?_⟩
  intro s i a b hv hi hin hmark hh hl
  have hlen : s.ilen = 3 := by rw [← input_length, hin]; rfl
  have hres : resultOf i s.input = textResult .scalar [(b ++ a).setWidth 21] := by
    rw [resultOf_dtxWith (f := utf16Result) (by omega) (by simp [resultOf])
      (fun sel pay hsel => dtxResult_utf16 (.inr (beq_iff_eq.mp hsel)) pay) hi, hin]
    exact utf16Result_ordinary hmark hh hl
  have hcap : s.ilen ≤ Config.ibufCap := by have := five_le_ibufCap; omega
  rw [exec_completes i hv hcap, hres]
  exact ⟨_, rfl, complete_completes s _⟩

end

section
/-! SUPPORT. What the Integer Codec's two commands complete with (40_integer_codec.md): the input bytes by their
indices, the value of `DSS` on four bytes or more, and `DSS` after `Enc28` and before it (R94). -/

namespace Sys2Proof.Machine

variable {s : State}

theorem input_getD {i : Nat} (h : i < s.ilen) : s.input.getD i 0 = s.inByte i := by
  rw [List.getD_eq_getElem?_getD, input_getElem? s h, Option.getD_some]

/-- An input written out has at most the five bytes that every block holds (R4), so the command runs on it. -/
theorem exec_completes_of_input (i : Instr) {bs : List Byte} (hv : s.iovf = false) (hin : s.input = bs)
    (hlen : bs.length ≤ 5) : exec i s = .next (s.complete (resultOf i bs)) := by
  have hcap : s.ilen ≤ Config.ibufCap := by
    rw [← input_length, hin]
    exact hlen.trans five_le_ibufCap
  rw [exec_completes i hv hcap, hin]

/-- `DSS` on four bytes or more, in the bytes of `IBUF`: the low seven bits of each of the last four (R90), under bits
[3:0] of the byte before them if there is one (R92). -/
theorem exec_dss_value (hv : s.iovf = false) (h4 : 4 ≤ s.ilen) (hcap : s.ilen ≤ Config.ibufCap) :
    ∃ v : Word, exec .dss s = .next (s.complete (intResult v)) ∧
      v.toNat =
        (if s.ilen = 4 then 0 else ((s.inByte (s.ilen - 5)).toNat % 16) * 2 ^ 28) +
        ((s.inByte (s.ilen - 4)).toNat % 128) * 2 ^ 21 + ((s.inByte (s.ilen - 3)).toNat % 128) * 2 ^ 14 +
        ((s.inByte (s.ilen - 2)).toNat % 128) * 2 ^ 7 + (s.inByte (s.ilen - 1)).toNat % 128 := by
  obtain ⟨v, hres, hval⟩ := dssResult_value s.input (by rwa [input_length])
  refine ⟨v, by rw [exec_completes .dss hv hcap, resultOf, hres], ?_⟩
  rwa [input_length, input_getD (by omega), input_getD (by omega), input_getD (by omega), input_getD (by omega),
    input_getD (by omega)] at hval

/-- Exactly four bytes: there is no byte before them, and the value has 28 bits (R90). -/
theorem dssResult_four (a b c d : Byte) :
    ∃ v : Word, dssResult [a, b, c, d] = intResult v ∧
      v.toNat = a.toNat % 128 * 2 ^ 21 + b.toNat % 128 * 2 ^ 14 + c.toNat % 128 * 2 ^ 7 + d.toNat % 128 := by
  simpa using dssResult_value [a, b, c, d] (by simp)

/-- One byte of `Enc28` as a number: a digit of the value in base 128. -/
theorem enc28_digit (v : BitVec 28) (k : Nat) : ((v.extractLsb' k 7).setWidth 8).toNat = v.toNat / 2 ^ k % 128 := by
  rw [BitVec.toNat_setWidth, BitVec.extractLsb'_toNat, Nat.shiftRight_eq_div_pow]
  omega

/-- R94: the digits of a 28-bit value, put together again, are the value. -/
theorem dssResult_enc28 (v : BitVec 28) : dssResult (enc28 v) = intResult (v.setWidth 32) := by
  obtain ⟨w, hres, hval⟩ : ∃ w : Word, dssResult (enc28 v) = intResult w ∧ _ := dssResult_four _ _ _ _
  have hw : w = v.setWidth 32 := by
    apply BitVec.eq_of_toNat_eq
    rw [hval, enc28_digit, enc28_digit, enc28_digit, enc28_digit, BitVec.toNat_setWidth]
    omega
  rw [hres, hw]

/-- Encoding the value of four bytes gives the bytes with bit 7 cleared. -/
theorem enc28_dssResult {bs : List Byte} (h : bs.length = 4) :
    (dssResult bs).status = .ok ∧
      (enc28 ((dssResult bs).res.setWidth 28)).map BitVec.toNat = bs.map (·.toNat % 128) := by
  obtain ⟨a, b, c, d, rfl⟩ := List.length_eq_four.mp h
  obtain ⟨v, hres, hval⟩ := dssResult_four a b c d
  rw [hres]
  refine ⟨rfl, ?_⟩
  simp only [intResult, enc28, List.map_cons, List.map_nil, enc28_digit, List.cons.injEq, and_true]
  rw [BitVec.toNat_setWidth, hval]
  omega

/-- Clearing bit 7 of every byte gives the same bytes exactly when it is clear in each. -/
theorem eq_iff_bitSeven_clear {bs cs : List Byte} (h : cs.map BitVec.toNat = bs.map (·.toNat % 128)) :
    cs = bs ↔ ∀ b ∈ bs, b.toNat < 128 := by
  have hinj : Function.Injective (List.map (BitVec.toNat (w := 8))) :=
    List.map_injective_iff.mpr fun _ _ => BitVec.eq_of_toNat_eq
  rw [← hinj.eq_iff, h, List.map_inj_left]
  simp only [Nat.mod_eq_iff_lt (show (128 : Nat) ≠ 0 by decide)]

end Sys2Proof.Machine
end

section
open Sys2Proof Sys2Proof.Machine

/-- Settles O18: the value of `DSS` takes each of the last four bytes modulo 128, so two inputs that agree there agree
in it; the two examples are computed. -/
theorem dssIgnoresBitSeven : Obligations.DssIgnoresBitSeven := by
  refine ⟨fun s s' hv hv' h4 hcap hlen hbefore hlast => ?_, fun s hv hin => ?_, fun s hv hin => ?_⟩
  · obtain ⟨v, hs, hval⟩ := exec_dss_value hv h4 hcap
    obtain ⟨v', hs', hval'⟩ := exec_dss_value hv' (hlen ▸ h4) (hlen ▸ hcap)
    have hfifth : s.ilen ≠ 4 → s'.inByte (s.ilen - 5) = s.inByte (s.ilen - 5) := fun hne => hbefore _ (by omega)
    have hsame : v' = v := by
      apply BitVec.eq_of_toNat_eq
      rw [hval, hval', hlen, hlast (s.ilen - 4) (by omega) (by omega), hlast (s.ilen - 3) (by omega) (by omega),
        hlast (s.ilen - 2) (by omega) (by omega), hlast (s.ilen - 1) (by omega) (by omega)]
      split
      · rfl
      · rw [hfifth ‹_›]
    subst hsame
    exact ⟨v', _, _, hs, hs', complete_completes s _, complete_completes s' _⟩
  · have hres : resultOf .dss [0x80#8, 0x80#8, 0x80#8, 0x80#8] = intResult 0 := by decide
    exact ⟨_, exec_completes_of_input .dss hv hin (by simp), hres ▸ complete_completes s _⟩
  · have hres : resultOf .dss [0xFF#8, 0xFF#8, 0xFF#8, 0xFF#8] = intResult 0x0FFFFFFF := by decide
    exact ⟨_, exec_completes_of_input .dss hv hin (by simp), hres ▸ complete_completes s _⟩

/-- Settles O20: `Enc28` writes the digits in base 128 that `DSS` puts together, and encoding the value of four bytes
clears bit 7 of each. -/
theorem dssInvertsEnc28 : Obligations.DssInvertsEnc28 := by
  refine ⟨fun v s hv hin => ?_, fun s hv hlen => ?_⟩
  · have hres : resultOf .dss (enc28 v) = intResult (v.setWidth 32) := dssResult_enc28 v
    exact ⟨_, exec_completes_of_input .dss hv hin (by simp [enc28]), hres ▸ complete_completes s _⟩
  · have hfour : s.input.length = 4 := (input_length s).trans hlen
    obtain ⟨hok, hclear⟩ := enc28_dssResult hfour
    exact ⟨_, exec_completes_of_input .dss hv rfl (by omega), hok, eq_iff_bitSeven_clear hclear⟩

/-- Settles O22: at most four bytes are read as one number, R42's sum over the input; more are rejected. -/
theorem dbeDecodesWholeInput : Obligations.DbeDecodesWholeInput := by
  intro s hv hcap
  have hexec : exec .dbe s = .next (s.complete (dbeResult s.input)) := exec_completes .dbe hv hcap
  refine ⟨fun h4 => ?_, fun h4 => ?_⟩
  · obtain ⟨v, hres, hval⟩ := dbeResult_value s.input (by rwa [input_length])
    refine ⟨v, _, hexec, hres ▸ complete_completes s _, ?_⟩
    rw [hval, memRead_eq_sum _ _ _ (by omega), input_length]
    refine Finset.sum_congr rfl fun j hj => ?_
    rw [Nat.zero_add, input_getD (Finset.mem_range.mp hj)]
  · have hres : dbeResult s.input = errorResult .longInput := dbeResult_long _ (by rwa [input_length])
    exact ⟨_, hexec, hres ▸ complete_completes s _⟩

/-- Settles O19: fewer than four bytes are within every capacity, and `DSS` rejects them whatever they hold (R93). -/
theorem dssRejectsShortInput : Obligations.DssRejectsShortInput := by
  intro s hv h4
  have hres : resultOf .dss s.input = errorResult .shortInput := dssResult_short _ (by rwa [input_length])
  have hlen : s.input.length ≤ 5 := by rw [input_length]; omega
  exact ⟨_, exec_completes_of_input .dss hv rfl hlen, hres ▸ complete_completes s _⟩

end

section
/-! SUPPORT. The Text Codec by selector (41_text_codec.md): what the rows and `DTX` complete with (R110 to R116), and
each code unit by its two bytes (R118). -/

namespace Sys2Proof.Machine

variable {s : State} {i : Instr}

/-- R118: each unit is formed from the next two bytes, whatever is left over at the end. -/
theorem codeUnits_getElem? (be : Bool) (bs : List Byte) (k : Nat) (h : 2 * k + 1 < bs.length) :
    (codeUnits be bs)[k]? = some (codeUnit be (bs.getD (2 * k) 0) (bs.getD (2 * k + 1) 0)) := by
  induction k generalizing bs with
  | zero =>
    match bs, h with
    | b₀ :: b₁ :: rest, _ => rfl
  | succ k ih =>
    match bs, h with
    | b₀ :: b₁ :: rest, h =>
      have hrest : 2 * k + 1 < rest.length := by
        simp only [List.length_cons] at h
        omega
      exact ih rest hrest

/-- A selector row, or `DTX` on one of its selectors, completes with the row's function of the payload. -/
theorem exec_dtxWith {rows : List Instr} {sels : Byte → Bool} {f : List Byte → Result} (hv : s.iovf = false)
    (hp : 0 < s.ilen) (hcap : s.ilen ≤ Config.ibufCap) (hrow : ∀ j ∈ rows, resultOf j = onPayload f)
    (hsel : ∀ b pay, sels b = true → dtxResult (b :: pay) = f pay) (h : dtxWith rows sels s i) :
    exec i s = .next (s.complete (f s.input.tail)) := by
  rw [exec_completes i hv hcap, resultOf_dtxWith hp hrow hsel h]

theorem payload_getElem? {j : Nat} (h : j < s.ilen - 1) : s.input.tail[j]? = some (s.inByte (j + 1)) := by
  rw [List.getElem?_tail, input_getElem? s (by omega)]

/-- `ExecBytes` (R112), as its row and as `DTX` on the row's selector: one element for each payload byte, the byte
zero-extended. -/
theorem exec_bytes_copies {row : Instr} {sel : Byte} {k : Kind} (hv : s.iovf = false) (hp : 0 < s.ilen)
    (hcap : s.ilen ≤ Config.ibufCap) (hrow : resultOf row = onPayload (bytesResult k))
    (hsel : ∀ pay, dtxResult (sel :: pay) = bytesResult k pay) (h : dtxWith [row] (fun b => b == sel) s i) :
    ∃ t elems, exec i s = .next t ∧ Completes s t .ok 0 k elems ∧ elems.length = s.ilen - 1 ∧
      ∀ j, j < s.ilen - 1 → elems[j]? = some ((s.inByte (j + 1)).setWidth 21) := by
  have hsels : ∀ b pay, (b == sel) = true → dtxResult (b :: pay) = bytesResult k pay := fun b pay hb => by
    rw [beq_iff_eq.mp hb, hsel]
  have hexec : exec i s = .next (s.complete (bytesResult k s.input.tail)) :=
    exec_dtxWith hv hp hcap (by simpa using hrow) hsels h
  refine ⟨_, s.input.tail.map (·.setWidth 21), hexec, complete_completes s _, by simp, fun j hj => ?_⟩
  rw [List.getElem?_map, payload_getElem? hj, Option.map_some]

/-- The dispatch of R110 takes every selector above 3 to the empty text. -/
theorem dtxResult_other {sel : Byte} (h : 4 ≤ sel.toNat) (pay : List Byte) :
    dtxResult (sel :: pay) = otherResult pay := by
  have hne : ∀ c : Byte, c.toNat < 4 → sel ≠ c := fun c hc he => by
    rw [he] at h
    omega
  rw [dtxResult, if_neg (hne _ (by decide)), if_neg (hne _ (by decide)),
    if_neg (not_or.mpr ⟨hne _ (by decide), hne _ (by decide)⟩)]

theorem resultOf_isOther (h : isOther i = true) : resultOf i = onPayload otherResult := by
  cases i with
  | dtxOther04 | dtxOther08 | dtxOther10 | dtxOther20 | dtxOther40 | dtxOther80 => rfl
  | dss | dbe | dtx | dtxSel0 | dtxSel1 | dtxSel2 | dtxSel3 => simp [isOther] at h

end Sys2Proof.Machine
end

section
open Sys2Proof Sys2Proof.Machine

/-- Settles O16: the units are half as many as the bytes, and each is its two bytes in either order. -/
theorem codeUnitsFollowByteOrder : Obligations.CodeUnitsFollowByteOrder := by
  intro be bs m hlen
  refine ⟨?_, fun k hk => ?_⟩
  · rw [codeUnits_length, hlen, Nat.mul_div_cancel_left m two_pos]
  · have hin : 2 * k + 1 < bs.length := by omega
    exact ⟨codeUnits_getElem? true bs k hin, codeUnits_getElem? false bs k hin⟩

/-- Settles O26: the row and `DTX` both run `ExecBytes` on the payload, with kind `BYTECHAR`. -/
theorem selector0CopiesPayload : Obligations.Selector0CopiesPayload :=
  fun _ _ hv hp hcap h => exec_bytes_copies hv hp hcap rfl (fun _ => rfl) h

/-- Settles O27: the row and `DTX` both run `ExecBytes` on the payload, with kind `UTF8RAW`. -/
theorem selector3CopiesPayload : Obligations.Selector3CopiesPayload :=
  fun _ _ hv hp hcap h => exec_bytes_copies hv hp hcap rfl (fun _ => rfl) h

/-- Settles O28: the six rows and the last case of `DTX`'s dispatch do not look at the payload. -/
theorem otherSelectorsGiveEmptyText : Obligations.OtherSelectorsGiveEmptyText := by
  intro s i hv hp hcap h
  have hres : resultOf i s.input = otherResult s.input.tail := by
    rw [input_cons hp]
    rcases h with hi | ⟨rfl, h4⟩
    · rw [resultOf_isOther hi]
      rfl
    · exact dtxResult_other h4 _
  exact ⟨_, exec_completes i hv hcap, hres ▸ complete_completes s _⟩

/-- Settles O32: the UTF-16 path tests the payload's length before anything else (R116). -/
theorem oddPayloadFails : Obligations.OddPayloadFails := by
  intro s i hv hp hcap hodd h
  have hsel : ∀ b pay, (b == 0x01#8 || b == 0x02#8) = true → dtxResult (b :: pay) = utf16Result pay :=
    fun b pay hb => dtxResult_utf16 (by simpa using hb) pay
  have hres : utf16Result s.input.tail = errorResult .oddLength :=
    utf16Result_odd (by rwa [List.length_tail, input_length])
  exact ⟨_, exec_dtxWith hv hp hcap (by simp [resultOf]) hsel h, hres ▸ complete_completes s _⟩

/-- Settles O24: the empty input is within every capacity, and `DTX` finds no selector in it. -/
theorem dtxRejectsEmptyInput : Obligations.DtxRejectsEmptyInput := by
  intro s hv hz
  exact ⟨_, exec_completes_of_input .dtx hv (input_nil hz) (by simp), complete_completes s _⟩

end

section
/-! SUPPORT. The clients' use of the block (42_client_context.md): a short input is decoded whole (R140), the size field
of the header as a `DSS` value (R145), and a frame read up to its identifier (R149, R153). -/

namespace Sys2Proof.Machine

/-- Five bytes fit in every block (R4), so none is dropped and `IOVF` stays clear. -/
theorem useBlock_of_length_le_five {bs : List Byte} (h : bs.length ≤ 5) (w : Byte) :
    useBlock w bs = execResult w false bs := by
  have hcap : bs.length ≤ Config.ibufCap := h.trans five_le_ibufCap
  rw [useBlock, List.take_of_length_le hcap, decide_eq_false (Nat.not_lt.mpr hcap)]

/-- A size field of four bytes, decoded with `DSS`, always gives a size: the low seven bits of each byte (R145, R150). -/
theorem useInteger_dss_four (a b c d : Byte) :
    useInteger 0x01#8 [a, b, c, d] =
      .ok (a.toNat % 128 * 2 ^ 21 + b.toNat % 128 * 2 ^ 14 + c.toNat % 128 * 2 ^ 7 + d.toNat % 128) := by
  obtain ⟨v, hres, hval⟩ := dssResult_four a b c d
  have hblock : useBlock 0x01#8 [a, b, c, d] = intResult v := by
    rw [useBlock_of_length_le_five (by simp), ← hres]
    rfl
  rw [← hval, useInteger, hblock]
  rfl

/-- A field begins with the byte at its index. -/
theorem drop_eq_getD_cons {bs : List Byte} {i : Nat} (h : i < bs.length) :
    bs.drop i = bs.getD i 0 :: bs.drop (i + 1) := by
  rw [List.getD_eq_getElem _ _ h, List.drop_eq_getElem_cons h]

/-- Four bytes of a field, by their indices. -/
theorem take_four_drop {bs : List Byte} {i : Nat} (h : i + 4 ≤ bs.length) :
    (bs.drop i).take 4 = [bs.getD i 0, bs.getD (i + 1) 0, bs.getD (i + 2) 0, bs.getD (i + 3) 0] := by
  rw [drop_eq_getD_cons (by omega), drop_eq_getD_cons (by omega), drop_eq_getD_cons (by omega),
    drop_eq_getD_cons (by omega)]
  rfl

/-- Only the size field can fail; the version bytes and the flag bits are taken as they stand (R144). -/
theorem headerOfBytes_of_size {h : List Byte} {size : Nat} (hsize : useInteger 0x01#8 ((h.drop 6).take 4) = .ok size) :
    headerOfBytes h = .ok ⟨h.getD 3 0, h.getD 4 0, (h.getD 5 0).getLsbD 7, (h.getD 5 0).getLsbD 6,
      (h.getD 5 0).getLsbD 5, (h.getD 5 0).getLsbD 4, size⟩ := by
  simp only [headerOfBytes, hsize]

/-- The three layouts there are (R148). -/
theorem frameLayout_cases {major : Byte} {l : FrameLayout} (h : frameLayout major = some l) :
    l = ⟨6, 3, 3, 0x02#8⟩ ∨ l = ⟨10, 4, 4, 0x02#8⟩ ∨ l = ⟨10, 4, 4, 0x01#8⟩ := by
  unfold frameLayout at h
  split_ifs at h <;> cases h <;> simp

theorem readExactly_of_le {n : Nat} {stream : List Byte} (h : n ≤ stream.length) :
    readExactly n stream = .ok (stream.take n, stream.drop n) :=
  if_pos h

/-- The identifier is tested before the size is decoded (R153): no hypothesis speaks of the size or of a payload. -/
theorem readFrame_null_identifier {l : FrameLayout} {stream : List Byte} (hlen : l.headerLength ≤ stream.length)
    (hid : ((stream.take l.headerLength).take l.idLength).head? = some 0x00#8) :
    readFrame l stream = .error .endOfFrames := by
  simp only [readFrame, readExactly_of_le hlen, if_pos hid]

end Sys2Proof.Machine
end

section
open Sys2Proof.Machine

/-- Settles O55: the size field is four bytes, on which `DSS` does not fail, and each digit in base 128 is at most 127. -/
theorem headerDecodes : Obligations.HeaderDecodes := by
  intro h hlen
  have hsize := useInteger_dss_four (h.getD 6 0) (h.getD 7 0) (h.getD 8 0) (h.getD 9 0)
  rw [← take_four_drop (by omega)] at hsize
  refine ⟨_, headerOfBytes_of_size hsize, rfl, rfl, rfl, rfl, rfl, rfl, ?_, rfl⟩
  dsimp only
  omega

/-- Settles O57: in every layout the identifier is not empty, so it begins with the first byte of the source. -/
theorem nullIdentifierEndsFrames : Obligations.NullIdentifierEndsFrames := by
  intro major l stream hl hlen hnull
  have hid : ((stream.take l.headerLength).take l.idLength).head? = stream.head? := by
    rcases frameLayout_cases hl with rfl | rfl | rfl <;> simp [List.head?_take]
  exact readFrame_null_identifier hlen (hid.trans hnull)

end

section
/-! SUPPORT. What an error completion leaves (60_exceptions.md R171), and which steps keep `IOVF` set (R174). -/

namespace Sys2Proof.Machine

variable {s t : State} {i : Instr} {r : Result} {x : Txn}

/-! ### Error completions -/

/-- `raise` in the terms of the statements (R171). -/
theorem raise_completes (s : State) (code : Status) : Completes s (s.raise code) code 0 .none [] :=
  complete_completes s (errorResult code)

/-- A valid result other than `OK` is an error result, so completing with it leaves only its code (R171). -/
theorem ResultValid.completes_error (h : ResultValid r) (hr : r.status ≠ .ok) :
    Completes s (s.complete r) r.status 0 .none [] := by
  obtain ⟨hres, hkind, helems⟩ := h.error_empty hr
  have hc := complete_completes s r
  rwa [hres, hkind, helems] at hc

theorem onPayload_valid {f : List Byte → Result} (hf : ∀ pay, ResultValid (f pay)) (bs : List Byte) :
    ResultValid (onPayload f bs) := by
  cases bs with
  | nil => exact errorResult_valid _
  | cons _ pay => exact hf pay

theorem resultOf_valid (i : Instr) (bs : List Byte) : ResultValid (resultOf i bs) := by
  cases i with
  | dss => exact dssResult_valid bs
  | dbe => exact dbeResult_valid bs
  | dtx => exact dtxResult_valid bs
  | dtxSel0 => exact onPayload_valid (bytesResult_valid (.inl rfl)) bs
  | dtxSel1 | dtxSel2 => exact onPayload_valid utf16Result_valid bs
  | dtxSel3 => exact onPayload_valid (bytesResult_valid (.inr rfl)) bs
  | dtxOther04 _ | dtxOther08 _ | dtxOther10 _ | dtxOther20 _ | dtxOther40 _ | dtxOther80 _ =>
    exact onPayload_valid otherResult_valid bs

/-- An instruction that answers a next state has completed with a valid result: the overflow error or its own. -/
theorem exec_next_valid (h : exec i s = .next t) : ∃ r, ResultValid r ∧ t = s.complete r := by
  rw [exec_eq_runLegal] at h
  rcases runLegal_cases h with ⟨-, ht⟩ | ⟨-, -, ht⟩
  · exact ⟨_, errorResult_valid _, ht⟩
  · exact ⟨_, resultOf_valid i s.input, ht⟩

/-! ### The overflow flag -/

/-- With `IOVF` set every instruction raises the overflow error, whatever its input (R174). -/
theorem exec_overflow (i : Instr) (h : s.iovf = true) : exec i s = .next (s.raise .inputOverflow) :=
  (exec_eq_runLegal i s).trans (runLegal_overflow _ h)

/-- Of the host's writes only an accepted `INCLR` clears `IOVF` (R25). -/
theorem hostWrite_keeps_iovf (hv : s.iovf = true) (r : Reg) (d : Byte) :
    (s.hostWrite r d).iovf = true ∨ s.phase ≠ .busy ∧ r = .inclr := by
  rcases hostWrite_cases s r d with ⟨-, -, he⟩ | ⟨-, -, -, he⟩ | ⟨-, -, -, he⟩ | ⟨hb, hr, -⟩ | ⟨-, -, he⟩ |
    ⟨-, -, -, he⟩
  case inr.inr.inr.inl => exact .inr ⟨hb, hr⟩
  all_goals exact .inl (by simp [he, hv])

/-- Of the transactions only an accepted `INCLR` and `Reset` clear `IOVF` (R174). -/
theorem hostStep_keeps_iovf (hs : hostStep x s = .next t) (hv : s.iovf = true) :
    t.iovf = true ∨ (s.phase ≠ .busy ∧ ∃ d, x = .write 3 d) ∨ x = .reset := by
  rcases hostStep_cases hs with ⟨n, d, r, rfl, hr, rfl⟩ | ⟨n, k, r, -, -, rfl⟩ | ⟨-, -, rfl⟩ | ⟨-, -, rfl⟩ |
    ⟨-, rfl⟩ | ⟨hx, -⟩
  · rcases hostWrite_keeps_iovf (s := s.turn) hv r d with hkept | ⟨hb, rfl⟩
    · exact .inl hkept
    · exact .inr (.inl ⟨hb, d, by rw [regOfNumber_eq_some.mp hr]; rfl⟩)
  · obtain ⟨v, m, hread⟩ := hostRead_eq s.turn r k
    exact .inl (by simp [hread, hv])
  · exact .inl hv
  · exact .inl hv
  · exact .inl hv
  · exact .inr (.inr hx)

end Sys2Proof.Machine
end

section
open Sys2Proof Sys2Proof.Machine

/-- Settles O9: `IOVF` is tested before the input and kept by the completion, so the next instruction meets it again; the
second part follows the kinds of step. -/
theorem overflowFailsEveryCommand : Obligations.OverflowFailsEveryCommand := by
  refine ⟨fun i s hv => ?_, fun s t hs hv => ?_⟩
  · have hc := raise_completes s .inputOverflow
    exact ⟨_, exec_overflow i hv, hc, fun j => ⟨_, exec_overflow j (hc.iovf_same.trans hv), raise_completes _ _⟩⟩
  · rcases step_cases hs with ⟨-, rfl⟩ | ⟨-, -, rfl⟩ | ⟨hb, x, rest, hx, hstep⟩
    · exact .inl hv
    · exact .inl hv
    · rcases hostStep_keeps_iovf hstep hv with hkept | ⟨hp, d, rfl⟩ | rfl
      · exact .inl hkept
      · exact .inr (.inl ⟨hp, d, rest, hb, hx⟩)
      · exact .inr (.inr ⟨rest, hb, hx⟩)

/-- Settles O12: an instruction and the block's step both complete with a valid result, and a valid result other than `OK`
is an error result. -/
theorem errorLeavesOnlyItsCode : Obligations.ErrorLeavesOnlyItsCode := by
  refine ⟨fun i s t h herr => ?_, fun s t hb h herr => ?_⟩
  · obtain ⟨r, hr, rfl⟩ := exec_next_valid h
    exact hr.completes_error herr
  · rw [step_block hb] at h
    cases completeStep_cases h
    exact (execResult_valid _ _ _).completes_error herr

/-- Settles O8: the word is decoded before `IOVF` or the input is looked at, and such a word does not decode. -/
theorem illegalCommandCompletes : Obligations.IllegalCommandCompletes := by
  intro s hp hturn h₁ h₂ h₃
  have hd : decode s.fetchBytes = .error (.illegalCommand s.lcmd) := decode_illegal h₁ h₂ h₃ _
  exact ⟨_, (step_block ((blockTurn_iff s).mpr ⟨hp, hturn⟩)).trans (completeStep_of_decode_error hd),
    raise_completes s .illegalCmd⟩

end

section
/-! SUPPORT. The encoder against the decoder (30_encoding.md section 7): what a selector row's two bytes determine, and what
stays of a placed word when the block fetches it. -/

namespace Sys2Proof

/-- A well-formed selector row is the one its selector byte decodes to, so no byte matches two rows (R80). -/
theorem decodeSelector_of_encode {i : Instr} {b : Byte} (hwf : i.wf = true) (henc : encode i = [0x03#8, b]) :
    decodeSelector b = i := by
  cases i with
  | dss | dbe | dtx => simp [encode] at henc
  | dtxSel0 | dtxSel1 | dtxSel2 | dtxSel3 => cases henc; rfl
  | dtxOther04 sel => cases henc; exact decodeSelector_other04 b hwf
  | dtxOther08 sel => cases henc; exact decodeSelector_other08 b hwf
  | dtxOther10 sel => cases henc; exact decodeSelector_other10 b hwf
  | dtxOther20 sel => cases henc; exact decodeSelector_other20 b hwf
  | dtxOther40 sel => cases henc; exact decodeSelector_other40 b hwf
  | dtxOther80 sel => cases henc; exact decodeSelector_other80 b hwf

/-- What an instruction's encoding is: a command word that stage 1 answers with it, or `DTX` and a selector byte. -/
theorem encode_cases (i : Instr) :
    (i = .dss ∧ encode i = [0x01#8]) ∨ (i = .dbe ∧ encode i = [0x02#8]) ∨ (i = .dtx ∧ encode i = [0x03#8]) ∨
      ∃ b, encode i = [0x03#8, b] := by
  cases i with
  | dss => exact .inl ⟨rfl, rfl⟩
  | dbe => exact .inr (.inl ⟨rfl, rfl⟩)
  | dtx => exact .inr (.inr (.inl ⟨rfl, rfl⟩))
  | dtxSel0 | dtxSel1 | dtxSel2 | dtxSel3 | dtxOther04 | dtxOther08 | dtxOther10 | dtxOther20 | dtxOther40 | dtxOther80 =>
    exact .inr (.inr (.inr ⟨_, rfl⟩))

/-- An encoding before any payload decodes to its instruction; `DTX` alone would take the payload's first byte as its
selector. -/
theorem decode_encode_append {i : Instr} (hwf : i.wf = true) (hi : i ≠ .dtx) (payload : List Byte) :
    decode (encode i ++ payload) = .ok i := by
  rcases encode_cases i with ⟨rfl, henc⟩ | ⟨rfl, henc⟩ | ⟨rfl, -⟩ | ⟨b, henc⟩
  · exact decode_dss payload
  · exact decode_dbe payload
  · exact absurd rfl hi
  · rw [henc, ← decodeSelector_of_encode hwf henc]
    exact decode_dtx b payload

theorem decode_encode {i : Instr} (hwf : i.wf = true) : decode (encode i) = .ok i := by
  by_cases hi : i = .dtx
  · subst hi
    rfl
  · simpa using decode_encode_append hwf hi []

/-- What is accepted is well formed and begins with its encoding. -/
theorem decode_ok {bs : List Byte} {i : Instr} (h : decode bs = .ok i) :
    i.wf = true ∧ ∃ payload, bs = encode i ++ payload := by
  match bs with
  | [] => cases h
  | [w] =>
    rcases decodeCommand_ok h with ⟨rfl, rfl⟩ | ⟨rfl, rfl⟩ | ⟨rfl, rfl⟩ <;> exact ⟨rfl, [], rfl⟩
  | w :: sel :: rest =>
    by_cases h₁ : w = 0x01#8
    · subst h₁
      obtain rfl : .dss = i := Except.ok.inj ((decode_dss _).symm.trans h)
      exact ⟨rfl, sel :: rest, rfl⟩
    · by_cases h₂ : w = 0x02#8
      · subst h₂
        obtain rfl : .dbe = i := Except.ok.inj ((decode_dbe _).symm.trans h)
        exact ⟨rfl, sel :: rest, rfl⟩
      · by_cases h₃ : w = 0x03#8
        · subst h₃
          obtain rfl : decodeSelector sel = i := Except.ok.inj ((decode_dtx _ _).symm.trans h)
          exact ⟨decodeSelector_wf sel, rest, by rw [encode_decodeSelector]; rfl⟩
        · rw [decode_illegal h₁ h₂ h₃] at h
          cases h

end Sys2Proof

namespace Sys2Proof.Machine

variable {s : State} {i : Instr}

/-- The block's step is the instruction its fetch decodes to (R80). -/
theorem step_of_fetch (hb : s.phase = .busy) (hturn : s.delay = 0 ∨ s.script = []) (hd : decode s.fetchBytes = .ok i) :
    step s = exec i s := by
  rw [step_block ((blockTurn_iff s).mpr ⟨hb, hturn⟩), completeStep_of_decode_ok hd]

/-- Bytes that decode, laid where the block fetches, are fetched as that instruction at the block's turn (log 13). -/
theorem placeBytes_fetch (s : State) {bs : List Byte} (hd : decode bs = .ok i) :
    (s.placeBytes bs).phase = .busy ∧ (s.placeBytes bs).delay = 0 ∧ decode (s.placeBytes bs).fetchBytes = .ok i := by
  match bs with
  | [] => cases hd
  | [w] =>
    by_cases hw : w = 0x03#8
    · subst hw
      exact ⟨rfl, rfl, hd⟩
    · have hplace : s.placeBytes [w] = { s with phase := .busy, delay := 0, lcmd := w } := if_neg hw
      refine ⟨by rw [hplace], by rw [hplace], ?_⟩
      rw [hplace, State.fetchBytes]
      rcases decodeCommand_ok hd with ⟨rfl, rfl⟩ | ⟨rfl, rfl⟩ | ⟨h₃, -⟩
      · exact decode_dss _
      · exact decode_dbe _
      · exact absurd h₃ hw
  | w :: sel :: rest =>
    have hpos : 0 < (s.placeBytes (w :: sel :: rest)).ilen := Nat.lt_of_lt_of_le Nat.one_pos (Nat.le_max_left 1 s.ilen)
    have hsel : (s.placeBytes (w :: sel :: rest)).inByte 0 = sel := by
      simp [State.placeBytes, State.inByte, Memory.read_write_same]
    refine ⟨rfl, rfl, ?_⟩
    rw [fetchBytes_cons hpos, hsel]
    exact hd

end Sys2Proof.Machine
end

section
open Sys2Proof Sys2Proof.Machine

/-- Settles O1: `DSS` and `DBE` take nothing after their word, and a selector row is the one its byte decodes to. -/
theorem decodeInvertsEncode : Obligations.DecodeInvertsEncode :=
  fun _ hwf => ⟨decode_encode hwf, decode_encode_append hwf⟩

/-- Settles O2, by the command word: `DSS`, `DBE`, or `DTX` with what the second stage makes of the selector. -/
theorem decodedBytesBeginWithEncoding : Obligations.DecodedBytesBeginWithEncoding :=
  fun _ _ h => decode_ok h

/-- Settles O4: the second stage answers a row that keeps the byte, and a row is determined by its byte. -/
theorem selectorRowsPartitionBytes : Obligations.SelectorRowsPartitionBytes :=
  fun b => ⟨⟨decodeSelector_wf b, encode_decodeSelector b⟩, fun _ hwf henc => (decodeSelector_of_encode hwf henc).symm⟩

/-- Settles O3: the two stages of the decoder, evaluated on the spec's words. -/
theorem specWordsDecode : Obligations.SpecWordsDecode :=
  ⟨rfl, rfl, rfl, rfl, rfl, rfl, rfl, rfl, rfl⟩

/-- Settles O5: what is fetched is the latched word alone or with the first input byte. -/
theorem stepRunsDecodedInstruction : Obligations.StepRunsDecodedInstruction := by
  refine fun s i hb hturn => ⟨fun hz hd => ?_, fun hp hd => ?_⟩
  · exact step_of_fetch hb hturn (by rwa [fetchBytes_empty hz])
  · exact step_of_fetch hb hturn (by rwa [fetchBytes_cons hp])

/-- Settles O6: laying the word gives the block its turn, and it fetches what the table's bytes decode to. -/
theorem fetchWordRunsTableInstruction : Obligations.FetchWordRunsTableInstruction := by
  intro s nbits w i h
  have hd : decode (tableBytes nbits w) = .ok i := by
    unfold decodeTableWord at h
    split at h
    · rename_i j hj
      rw [hj, Option.some.inj h]
    · cases h
  obtain ⟨hb, hdelay, hfetch⟩ := placeBytes_fetch s hd
  exact step_of_fetch hb (.inl hdelay) hfetch

end

section
/-! SUPPORT. What one step does to the block, said once: the completion, an accepted transaction, a protocol error, the
reset, or nothing but the host's side moves. The rules over all steps (10_state.md sections 2, 4 and 8) are read off it. -/

namespace Sys2Proof.Machine

variable {s t : State} {r : Result} {x : Txn} {rest : List Txn}

/-- The state after a step, by the rule that moved it. -/
inductive StepEffect (s : State) : State → Prop where
  /-- The block's own step (R30). -/
  | completed (hb : s.blockTurn = true) : StepEffect s (s.complete (execResult s.lcmd s.iovf s.input))
  /-- Only the host's side moved: a read, a poll, a write of a read-only register, or no step at all. -/
  | hostSide (script : List Txn) (reads : List ReadEntry) (delay draws : Nat) :
      StepEffect s { s with script := script, reads := reads, delay := delay, draws := draws }
  /-- A write that `BUSY` forbids was dropped (R17). -/
  | dropped (hb : s.phase = .busy) : StepEffect s s.turn.flagProtocolError
  /-- A push into a buffer with room (R24). -/
  | pushed (b : Byte) {rest : List Txn} (h : s.hostTurn (.write 2 b) rest) (hb : s.phase ≠ .busy)
      (hc : s.ilen < Config.ibufCap) : StepEffect s (s.turn.appendByte b)
  /-- A push into a full buffer (R16, R24). -/
  | overflowed {b : Byte} {rest : List Txn} (h : s.hostTurn (.write 2 b) rest) (hb : s.phase ≠ .busy)
      (hc : Config.ibufCap ≤ s.ilen) : StepEffect s s.turn.flagOverflow
  /-- An accepted `INCLR` (R25). -/
  | emptied {d : Byte} {rest : List Txn} (h : s.hostTurn (.write 3 d) rest) (hb : s.phase ≠ .busy) :
      StepEffect s s.turn.emptyInput
  /-- An accepted `CMD` write (R26). -/
  | accepted (w : Byte) {rest : List Txn} (h : s.hostTurn (.write 1 w) rest) (hb : s.phase ≠ .busy) :
      StepEffect s (s.turn.accept w)
  /-- The event `Reset` (R191). -/
  | reset {rest : List Txn} (h : s.hostTurn .reset rest) : StepEffect s s.turn.resetBlock

theorem hostWrite_effect {r : Reg} {d : Byte} (h : s.hostTurn (.write r.number d) rest) :
    StepEffect s (s.turn.hostWrite r d) := by
  rcases hostWrite_cases s.turn r d with ⟨hb, -, he⟩ | ⟨hb, rfl, hc, he⟩ | ⟨hb, rfl, hc, he⟩ | ⟨hb, rfl, he⟩ |
    ⟨hb, rfl, he⟩ | ⟨-, -, -, he⟩ <;> rw [he]
  · exact .dropped hb
  · exact .pushed d h hb hc
  · exact .overflowed h hb hc
  · exact .emptied h hb
  · exact .accepted d h hb
  · exact .hostSide _ _ _ _

theorem hostStep_effect (h : s.hostTurn x rest) (hs : hostStep x s = .next t) : StepEffect s t := by
  rcases hostStep_cases hs with ⟨n, d, r, rfl, hr, rfl⟩ | ⟨n, i, r, rfl, -, rfl⟩ | ⟨-, -, rfl⟩ | ⟨-, -, rfl⟩ |
    ⟨-, rfl⟩ | ⟨rfl, rfl⟩
  · obtain rfl := regOfNumber_eq_some.mp hr
    exact hostWrite_effect h
  · obtain ⟨v, m, hread⟩ := hostRead_eq s.turn r i
    rw [hread]
    exact .hostSide _ _ _ _
  · exact .hostSide _ _ _ _
  · exact .hostSide _ _ _ _
  · exact .hostSide _ _ _ _
  · exact .reset h

/-- Every step is of one of these kinds. -/
theorem step_effect (hs : step s = .next t) : StepEffect s t := by
  rcases step_cases hs with ⟨hb, rfl⟩ | ⟨-, -, rfl⟩ | ⟨hb, x, rest, hx, hstep⟩
  · exact .completed hb
  · exact .hostSide _ _ _ _
  · exact hostStep_effect ⟨hb, hx⟩ hstep

/-! ### The invariant of R34 -/

/-- The invariant speaks of the block only: the host's side may be anything. -/
theorem BlockInv.hostSide (h : BlockInv s) (script : List Txn) (reads : List ReadEntry) (delay draws : Nat) :
    BlockInv { s with script := script, reads := reads, delay := delay, draws := draws } :=
  { h with }

/-- Every element that can be read back after a completion is one of the result's. -/
theorem complete_outElem_mem {i : Nat} {e : Elem} (h : (s.complete r).outElem i = some e) : e ∈ r.elems := by
  by_cases hi : i < r.elems.length
  · rw [complete_outElem s r hi] at h
    exact Option.some.inj h ▸ List.getElem_mem hi
  · rw [complete_outElem_none s r (Nat.le_of_not_lt hi)] at h
    cases h

/-- Completing with a valid result that fits the output buffer keeps the invariant. -/
theorem BlockInv.complete (h : BlockInv s) (hr : ResultValid r) (hlen : r.elems.length ≤ Config.obufCap) :
    BlockInv (s.complete r) where
  input_listed := h.input_listed
  output_listed := Memory.output_range r.elems
  ilen_le := h.ilen_le
  olen_le := hlen
  overflow_full := h.overflow_full
  error_empty _ he := by
    obtain ⟨hres, hkind, helems⟩ := hr.error_empty he
    exact ⟨hres, hkind, List.length_eq_zero_iff.mpr helems⟩
  none_empty _ hk := List.length_eq_zero_iff.mpr (hr.none_empty hk)
  bytes_small _ hk _ _ e he := hr.bytes_small hk e (complete_outElem_mem he)
  scalars_valid _ hk _ _ e he := hr.scalars_valid hk e (complete_outElem_mem he)
  text_no_integer _ hk := hr.text_no_integer hk
  idle_reset hp := by cases hp

/-- What `Exec` computes from an input within its capacity fits the output buffer (R126). -/
theorem execResult_fits (h : s.ilen ≤ Config.ibufCap) :
    (execResult s.lcmd s.iovf s.input).elems.length ≤ Config.obufCap := by
  have hlen := execResult_length s.lcmd s.iovf s.input
  rw [input_length] at hlen
  exact hlen.trans (Nat.sub_le_sub_right h 1)

/-- With room in the buffer `IOVF` is clear. -/
theorem BlockInv.iovf_clear (h : BlockInv s) (hc : s.ilen < Config.ibufCap) : s.iovf = false := by
  rw [← Bool.not_eq_true]
  intro hv
  exact absurd (h.overflow_full hv) hc.ne

theorem BlockInv.appendByte (h : BlockInv s) (hc : s.ilen < Config.ibufCap) (b : Byte) : BlockInv (s.appendByte b) :=
  { h with
    input_listed := Memory.write_range b h.input_listed
    ilen_le := hc
    overflow_full := fun hv => absurd ((h.iovf_clear hc).symm.trans hv) Bool.false_ne_true }

theorem BlockInv.flagOverflow (h : BlockInv s) (hc : Config.ibufCap ≤ s.ilen) : BlockInv s.flagOverflow :=
  { h with overflow_full := fun _ => h.ilen_le.antisymm hc }

theorem BlockInv.emptyInput (h : BlockInv s) : BlockInv s.emptyInput :=
  { h with
    input_listed := rfl
    ilen_le := Nat.zero_le _
    overflow_full := fun hv => absurd hv Bool.false_ne_true }

/-- A busy block promises nothing of its result registers. -/
theorem BlockInv.accept (h : BlockInv s) (w : Byte) : BlockInv (s.accept w) :=
  { h with
    error_empty := fun hb => absurd rfl hb
    none_empty := fun hb => absurd rfl hb
    bytes_small := fun hb => absurd rfl hb
    scalars_valid := fun hb => absurd rfl hb
    text_no_integer := fun hb => absurd rfl hb
    idle_reset := fun hp => by cases hp }

theorem BlockInv.flagProtocolError (h : BlockInv s) : BlockInv s.flagProtocolError :=
  { h with }

theorem BlockInv.turn (h : BlockInv s) : BlockInv s.turn :=
  h.hostSide _ _ _ _

theorem blockInv_reset : BlockInv State.reset where
  input_listed := rfl
  output_listed := rfl
  ilen_le := Nat.zero_le _
  olen_le := Nat.zero_le _
  overflow_full hv := by cases hv
  error_empty _ he := absurd rfl he
  none_empty _ _ := rfl
  bytes_small _ hk := by rcases hk with hk | hk <;> cases hk
  scalars_valid _ hk := by cases hk
  text_no_integer _ hk := absurd rfl hk
  idle_reset _ := ⟨rfl, rfl, rfl, rfl, rfl⟩

/-- Every kind of step keeps the invariant. -/
theorem StepEffect.keeps_inv (he : StepEffect s t) (h : BlockInv s) : BlockInv t := by
  cases he with
  | completed _ => exact h.complete (execResult_valid _ _ _) (execResult_fits h.ilen_le)
  | hostSide script reads delay draws => exact h.hostSide script reads delay draws
  | dropped _ => exact h.turn.flagProtocolError
  | pushed b _ _ hc => exact h.turn.appendByte hc b
  | overflowed _ _ hc => exact h.turn.flagOverflow hc
  | emptied _ _ => exact h.turn.emptyInput
  | accepted w _ _ => exact h.turn.accept w
  | reset _ => exact blockInv_reset.hostSide _ _ _ _

/-- A step from a state with the invariant answers a next state, or refuses an unknown register (R35, R170). -/
theorem BlockInv.step_total (h : BlockInv s) :
    (∃ t, step s = .next t) ∨ ∃ n rest, 10 < n ∧ step s = .refused (.noSuchRegister n) ∧
      ((∃ d, s.hostTurn (.write n d) rest) ∨ ∃ i, s.hostTurn (.read n i) rest) := by
  by_cases hb : s.blockTurn = true
  · exact .inl ⟨_, (step_block hb).trans (completeStep_next h.ilen_le)⟩
  · rw [Bool.not_eq_true] at hb
    cases hs : s.script with
    | nil => exact .inl ⟨s, step_quiet hb hs⟩
    | cons x rest =>
      have hturn : s.hostTurn x rest := ⟨hb, hs⟩
      rw [hostTurn_step hturn]
      cases x with
      | write n d =>
        rcases Nat.lt_or_ge 10 n with hn | hn
        · exact .inr ⟨n, rest, hn, by simp only [hostStep, regOfNumber_none hn], .inl ⟨d, hturn⟩⟩
        · obtain ⟨r, hr⟩ := regOfNumber_known hn
          exact .inl ⟨s.turn.hostWrite r d, by simp only [hostStep, hr]⟩
      | read n i =>
        rcases Nat.lt_or_ge 10 n with hn | hn
        · exact .inr ⟨n, rest, hn, by simp only [hostStep, regOfNumber_none hn], .inr ⟨i, hturn⟩⟩
        · obtain ⟨r, hr⟩ := regOfNumber_known hn
          exact .inl ⟨s.turn.hostRead r i, by simp only [hostStep, hr]⟩
      | wait =>
        by_cases hd : s.phase = .done
        · exact .inl ⟨s.turn, if_pos hd⟩
        · exact .inl ⟨s.poll, if_neg hd⟩
      | readAll => exact .inl ⟨_, rfl⟩
      | reset => exact .inl ⟨_, rfl⟩

end Sys2Proof.Machine
end

section
open Sys2Proof Sys2Proof.Machine

/-- Settles O46, by the kinds of step: each keeps the invariant. -/
theorem stepKeepsInvariant : Obligations.StepKeepsInvariant :=
  fun _ _ hinv hs => (step_effect hs).keeps_inv hinv

/-- Settles O47: nothing is listed, and every register has its reset value. -/
theorem resetHasInvariant : Obligations.ResetHasInvariant :=
  blockInv_reset

/-- Settles O48: the block's step is total within the capacity, and of the transactions only an unknown register is
refused. -/
theorem blockNeverTraps : Obligations.BlockNeverTraps :=
  fun _ hinv => hinv.step_total

/-- Settles O49: of the kinds of step only three change `PHASE`. -/
theorem phaseChangesOnlyByRule : Obligations.PhaseChangesOnlyByRule := by
  intro s t hs hne
  cases step_effect hs with
  | completed hb => exact .inr (.inl ⟨((blockTurn_iff s).mp hb).1, rfl, hb⟩)
  | accepted w h hb => exact .inl ⟨hb, rfl, w, _, h⟩
  | reset h => exact .inr (.inr ⟨rfl, _, h⟩)
  | hostSide | dropped | pushed | overflowed | emptied => exact absurd rfl hne

/-- Settles O51: of the kinds of step an accepted `CMD` write and the reset change `LCMD`; an accepted push, an `INCLR` and
the reset change `ILEN`. -/
theorem commandAndLengthHaveOneWriter : Obligations.CommandAndLengthHaveOneWriter := by
  intro s t hs
  cases step_effect hs with
  | accepted w h hb => exact ⟨fun _ => .inl ⟨hb, _, h⟩, fun hne => absurd rfl hne⟩
  | pushed b h hb _ => exact ⟨fun hne => absurd rfl hne, fun _ => .inl ⟨hb, rfl, b, _, h⟩⟩
  | emptied h hb => exact ⟨fun hne => absurd rfl hne, fun _ => .inr (.inl ⟨hb, rfl, _, _, h⟩)⟩
  | reset h => exact ⟨fun _ => .inr ⟨_, h⟩, fun _ => .inr (.inr ⟨rfl, _, h⟩)⟩
  | completed | hostSide | dropped | overflowed => exact ⟨fun hne => absurd rfl hne, fun hne => absurd rfl hne⟩

/-- Settles O10: the overflowing push is the one kind of step that sets `IOVF`, and such a push always sets it. -/
theorem overflowFlagSetByFullPush : Obligations.OverflowFlagSetByFullPush := by
  intro s t hs hclear
  refine ⟨fun hset => ?_, fun ⟨hb, hc, b, rest, h⟩ => ?_⟩
  · cases step_effect hs with
    | overflowed h hb hc => exact ⟨hb, hc, _, _, h⟩
    | completed | hostSide | dropped | pushed | accepted => exact absurd (hclear.symm.trans hset) Bool.false_ne_true
    | emptied | reset => exact absurd hset Bool.false_ne_true
  · have hfull := step_hostWrite (r := .inpush) h
    rw [hostWrite_inpush_full (s := s.turn) hb hc, hs] at hfull
    rw [Host.Outcome.next.inj hfull]
    rfl

end

section
/-! SUPPORT. What an instruction leaves and how long its output is (10_state.md R30, 41_text_codec.md R126), and the block's
step as `Exec`. -/

namespace Sys2Proof.Machine

variable {s t : State} {i : Instr}

/-- At its turn, and within the capacity, the block completes with what `Exec` computes (R30). -/
theorem step_completes (hb : s.blockTurn = true) (hc : s.ilen ≤ Config.ibufCap) :
    step s = .next (s.complete (execResult s.lcmd s.iovf s.input)) :=
  (step_block hb).trans (completeStep_next hc)

/-- A completion leaves the input as it was: no byte of `IBUF` is written. -/
theorem complete_input (s : State) (r : Result) : (s.complete r).input = s.input := rfl

/-- The output of an instruction that answers a next state is none, on overflow, or that of its function. -/
theorem exec_olen_le (h : exec i s = .next t) : t.olen ≤ (resultOf i s.input).elems.length := by
  rw [exec_eq_runLegal] at h
  rcases runLegal_cases h with ⟨-, rfl⟩ | ⟨-, -, rfl⟩
  · exact Nat.zero_le _
  · exact le_rfl

/-- A bound on the output of a payload's function, for the input with its selector byte. -/
theorem onPayload_length {f : List Byte → Result} {bound : Nat → Nat}
    (hf : ∀ pay, (f pay).elems.length ≤ bound pay.length) (bs : List Byte) :
    (onPayload f bs).elems.length ≤ bound (bs.length - 1) := by
  cases bs with
  | nil => exact Nat.zero_le _
  | cons sel pay => exact hf pay

theorem bytesResult_length (k : Kind) (pay : List Byte) : (bytesResult k pay).elems.length = pay.length := by
  simp [bytesResult, textResult]

theorem dssResult_elems (bs : List Byte) : (dssResult bs).elems = [] := by
  simp only [dssResult]
  split <;> rfl

theorem dbeResult_elems (bs : List Byte) : (dbeResult bs).elems = [] := by
  rw [dbeResult]
  split <;> rfl

/-- Every instruction's output is shorter than its input (R126). -/
theorem resultOf_length (i : Instr) (bs : List Byte) : (resultOf i bs).elems.length ≤ bs.length - 1 := by
  cases i with
  | dss => simp [resultOf, dssResult_elems]
  | dbe => simp [resultOf, dbeResult_elems]
  | dtx => exact dtxResult_length bs
  | dtxSel0 | dtxSel3 => exact onPayload_length (bound := id) (fun pay => (bytesResult_length _ pay).le) bs
  | dtxSel1 | dtxSel2 =>
    exact onPayload_length (bound := id) (fun pay => (utf16Result_length pay).trans (Nat.div_le_self _ _)) bs
  | dtxOther04 | dtxOther08 | dtxOther10 | dtxOther20 | dtxOther40 | dtxOther80 =>
    exact onPayload_length (bound := id) (fun _ => Nat.zero_le _) bs

/-- Under selectors 1 and 2 an element takes at least two bytes (R126). -/
theorem resultOf_utf16_length (hi : i = .dtxSel1 ∨ i = .dtxSel2) (bs : List Byte) :
    (resultOf i bs).elems.length ≤ (bs.length - 1) / 2 := by
  rcases hi with rfl | rfl <;> exact onPayload_length (bound := (· / 2)) utf16Result_length bs

theorem resultOf_other_length (hi : isOther i = true) (bs : List Byte) : (resultOf i bs).elems.length = 0 := by
  rw [resultOf_isOther hi]
  exact Nat.le_zero.mp (onPayload_length (bound := fun _ => 0) (fun _ => le_rfl) bs)

/-- `DTX` on a non-empty input is the row its selector decodes to (R80, R110). -/
theorem exec_dtx_selector (hp : 0 < s.ilen) : exec .dtx s = exec (decodeSelector (s.inByte 0)) s := by
  rw [exec_eq_runLegal, exec_eq_runLegal]
  apply runLegal_congr
  rw [input_cons hp]
  exact (resultOf_decodeSelector _ _).symm

end Sys2Proof.Machine
end

section
open Sys2Proof Sys2Proof.Machine

/-- Settles O7: the block's turn is only in `BUSY`, and its step is the completion with what `Exec` computes. -/
theorem completeWritesExec : Obligations.CompleteWritesExec :=
  ⟨fun _ hb => blockTurn_false_of_not_busy hb,
    fun s hb hturn hc => ⟨_, step_completes ((blockTurn_iff s).mpr ⟨hb, hturn⟩) hc, complete_completes s _⟩⟩

/-- Settles O13: an instruction that answers a next state has completed, and a completion leaves all of this. -/
theorem instructionFrame : Obligations.InstructionFrame := by
  intro i s t h
  obtain ⟨r, -, rfl⟩ := exec_next_valid h
  exact ⟨rfl, rfl, rfl, rfl, rfl, fun _ => rfl, complete_input s r, fun _ ha => complete_outElem_none s r ha,
    rfl, rfl, rfl, rfl⟩

/-- Settles O11: every instruction runs as a legal command, whose one stop this is. -/
theorem inputBeyondCapacityStops : Obligations.InputBeyondCapacityStops :=
  fun i s hv hc => (exec_eq_runLegal i s).trans (runLegal_stops _ hv hc)

/-- Settles O35: the output is at most that of the instruction's function, which is bounded row by row. -/
theorem outputFitsItsBuffer : Obligations.OutputFitsItsBuffer := by
  intro i s t h hc
  have hle := exec_olen_le h
  have hlen : (resultOf i s.input).elems.length ≤ s.ilen - 1 := by simpa using resultOf_length i s.input
  refine ⟨hle.trans hlen, (hle.trans hlen).trans (Nat.sub_le_sub_right hc 1), fun hi => ?_, fun hi => ?_⟩
  · exact hle.trans (by simpa using resultOf_utf16_length hi s.input)
  · exact Nat.le_zero.mp (hle.trans (resultOf_other_length hi s.input).le)

/-- Settles O25: `DTX` computes on the input what the decoded row computes. -/
theorem dtxRunsItsSelectorRow : Obligations.DtxRunsItsSelectorRow :=
  fun _ hp => exec_dtx_selector hp

end

section
/-! SUPPORT. The two integer commands on the same four bytes (40_integer_codec.md R98). -/

namespace Sys2Proof.Machine

theorem dbeResult_four (a b c d : Byte) :
    ∃ v : Word, dbeResult [a, b, c, d] = intResult v ∧
      v.toNat = a.toNat * 2 ^ 24 + b.toNat * 2 ^ 16 + c.toNat * 2 ^ 8 + d.toNat := by
  obtain ⟨v, hres, hval⟩ := dbeResult_value [a, b, c, d] le_rfl
  exact ⟨v, hres, hval.trans (memRead_four [a, b, c, d] 0 le_rfl)⟩

end Sys2Proof.Machine
end

section
open Sys2Proof Sys2Proof.Machine

/-- Settles O17: the value of `DSS` on the input's bytes, completed. -/
theorem dssValue : Obligations.DssValue := by
  intro s hv h4 hcap
  obtain ⟨v, hexec, hval⟩ := exec_dss_value hv h4 hcap
  exact ⟨v, _, hexec, complete_completes s _, hval⟩

/-- Settles O21: with no fifth byte the value is four digits in base 128. -/
theorem fourByteSizeIsBelow28Bits : Obligations.FourByteSizeIsBelow28Bits := by
  intro s hv h4
  have hcap : s.ilen ≤ Config.ibufCap := by have := five_le_ibufCap; omega
  obtain ⟨v, hexec, hval⟩ := exec_dss_value hv h4.ge hcap
  refine ⟨v, _, hexec, complete_completes s _, ?_⟩
  rw [if_pos h4] at hval
  omega

/-- Settles O23: the same four digits in base 256 and in base 128, which differ unless only the last is not zero. -/
theorem integerCommandsAgreeOnSmallBytes : Obligations.IntegerCommandsAgreeOnSmallBytes := by
  intro s a b c d hv hin ha hb hc hd
  obtain ⟨v, hdbe, hval⟩ : ∃ v : Word, resultOf .dbe [a, b, c, d] = intResult v ∧ _ := dbeResult_four a b c d
  obtain ⟨w, hdss, hwal⟩ : ∃ w : Word, resultOf .dss [a, b, c, d] = intResult w ∧ _ := dssResult_four a b c d
  rw [Nat.mod_eq_of_lt ha, Nat.mod_eq_of_lt hb, Nat.mod_eq_of_lt hc, Nat.mod_eq_of_lt hd] at hwal
  have hexec (i : Instr) : exec i s = .next (s.complete (resultOf i [a, b, c, d])) :=
    exec_completes_of_input i hv hin (by simp)
  refine ⟨v, w, _, _, hexec .dbe, hdbe ▸ complete_completes s _, hexec .dss, hdss ▸ complete_completes s _, hval, hwal, ?_⟩
  simp only [← BitVec.toNat_inj, hval, hwal, BitVec.ofNat_eq_ofNat, BitVec.toNat_zero]
  omega

end

section
/-! SUPPORT. Selectors 1 and 2 on a text's bytes (41_text_codec.md R117 to R122): the mark, and the scan as the inverse of
the text's UTF-16 bytes. -/

namespace Sys2Proof.Machine

variable {s : State} {i : Instr} {be : Bool} {text : List Elem}

/-- The rows of selectors 1 and 2, and `DTX` on these selectors, complete with the UTF-16 path's result (R115). -/
theorem exec_utf16 {sel : Byte} {pay : List Byte} (hv : s.iovf = false) (hcap : s.ilen ≤ Config.ibufCap)
    (h : dtxWith [.dtxSel1, .dtxSel2] (fun b => b == 0x01#8 || b == 0x02#8) s i) (hin : s.input = sel :: pay) :
    exec i s = .next (s.complete (utf16Result pay)) := by
  have hp : 0 < s.ilen := by rw [← input_length, hin]; exact Nat.succ_pos _
  have hsel : ∀ b pay, (b == 0x01#8 || b == 0x02#8) = true → dtxResult (b :: pay) = utf16Result pay :=
    fun b pay hb => dtxResult_utf16 (by simpa using hb) pay
  rw [exec_dtxWith hv hp hcap (by simp [resultOf]) hsel h, hin, List.tail_cons]

/-- A mark is taken off and gives the byte order (R117). -/
theorem splitMark_marked (be : Bool) (body : List Byte) : splitMark (markBytes be ++ body) = (be, body) := by
  cases be <;> simp [splitMark, markBytes]

theorem bytesOfUnit_length (be : Bool) (u : CodeUnit) : (bytesOfUnit be u).length = 2 := by
  cases be <;> rfl

theorem utf16Bytes_even (be : Bool) (text : List Elem) : (utf16Bytes be text).length % 2 = 0 := by
  simp [utf16Bytes, List.length_flatMap, bytesOfUnit_length]

theorem splitMark_even {pay : List Byte} (h : pay.length % 2 = 0) : (splitMark pay).2.length % 2 = 0 := by
  have := splitMark_length pay
  omega

/-- An even number of bytes is scanned to a text exactly when they are that text's bytes (R118 to R122). -/
theorem scanUnits_codeUnits_iff {body : List Byte} (h : body.length % 2 = 0) :
    scanUnits (codeUnits be body) = some text ↔ scalarText text ∧ body = utf16Bytes be text := by
  constructor
  · intro hscan
    obtain ⟨ht, hunits⟩ := scanUnits_sound hscan
    exact ⟨ht, by rw [utf16Bytes, ← hunits, bytes_codeUnits be body h]⟩
  · rintro ⟨ht, rfl⟩
    have hscan := scanUnits_text ht []
    rw [List.append_nil] at hscan
    rw [utf16Bytes, codeUnits_bytes, hscan]
    simp [scanUnits]

/-- Where the bytes after the mark are a text's, the UTF-16 path gives the text. -/
theorem utf16Result_text {pay : List Byte} (heven : pay.length % 2 = 0) (ht : scalarText text)
    (hbody : (splitMark pay).2 = utf16Bytes (splitMark pay).1 text) : utf16Result pay = textResult .scalar text := by
  rw [utf16Result_even heven, (scanUnits_codeUnits_iff (splitMark_even heven)).mpr ⟨ht, hbody⟩]

/-- Where the scan finds an unpaired surrogate, the UTF-16 path gives no element (R122). -/
theorem utf16Result_unpaired {pay : List Byte} (heven : pay.length % 2 = 0)
    (hscan : scanUnits (codeUnits (splitMark pay).1 (splitMark pay).2) = none) :
    utf16Result pay = errorResult .unpairedSurrogate := by
  rw [utf16Result_even heven, hscan]

/-- The low ten bits of a high and of a low surrogate, concatenated. -/
theorem lowTenBits_append (h l : CodeUnit) :
    (h.extractLsb' 0 10 ++ l.extractLsb' 0 10 : BitVec (10 + 10)).toNat = h.toNat % 1024 * 1024 + l.toNat % 1024 := by
  rw [BitVec.toNat_append, ← Nat.shiftLeft_add_eq_or_of_lt (BitVec.isLt _), Nat.shiftLeft_eq]
  simp

end Sys2Proof.Machine
end

section
open Sys2Proof Sys2Proof.Machine

/-- Settles O29: with a mark or without one, what is scanned is the text's bytes in the byte order they were written in. -/
theorem utf16TextDecodes : Obligations.Utf16TextDecodes := by
  intro s i text hv hcap ht hi hin
  obtain ⟨sel, pay, hpay, heven, hbody⟩ : ∃ sel pay, s.input = sel :: pay ∧ pay.length % 2 = 0 ∧
      (splitMark pay).2 = utf16Bytes (splitMark pay).1 text := by
    rcases hin with ⟨sel, be, hin⟩ | ⟨sel, hin, hmark⟩
    · have hmarkLen : (markBytes be).length = 2 := by cases be <;> rfl
      refine ⟨sel, _, hin, ?_, by rw [splitMark_marked]⟩
      rw [List.length_append, hmarkLen, Nat.add_mod_left, utf16Bytes_even]
    · exact ⟨sel, _, hin, utf16Bytes_even _ _, by rw [splitMark_unmarked hmark]⟩
  exact ⟨_, exec_utf16 hv hcap hi hpay, utf16Result_text heven ht hbody ▸ complete_completes s _⟩

/-- Settles O30: the scan answers a text exactly when the bytes after the mark are the text's. -/
theorem utf16SucceedsExactlyOnText : Obligations.Utf16SucceedsExactlyOnText := by
  intro s i sel pay hv hcap hi hin heven
  refine ⟨_, exec_utf16 hv hcap hi hin, ?_⟩
  by_cases h : ∃ text, scalarText text ∧ (splitMark pay).2 = utf16Bytes (splitMark pay).1 text
  · obtain ⟨text, ht, hbody⟩ := h
    exact .inl ⟨text, ht, hbody, utf16Result_text heven ht hbody ▸ complete_completes s _⟩
  · have hscan : scanUnits (codeUnits (splitMark pay).1 (splitMark pay).2) = none :=
      Option.eq_none_iff_forall_ne_some.mpr fun text he =>
        h ⟨text, (scanUnits_codeUnits_iff (splitMark_even heven)).mp he⟩
    exact .inr ⟨h, utf16Result_unpaired heven hscan ▸ complete_completes s _⟩

/-- Settles O31: the scan passes over the text and ends at the unpaired surrogate, in each of R122's three cases. -/
theorem unpairedSurrogateFails : Obligations.UnpairedSurrogateFails := by
  intro s i sel pay text bad hv hcap hi hin heven ht hunits hbad
  have hnone : scanUnits bad = none := by
    rcases hbad with ⟨h, rfl, hh⟩ | ⟨h, u, rest, rfl, hh, hu⟩ | ⟨l, rest, rfl, hl⟩
    · exact scanUnits_highLast hh
    · exact scanUnits_highAlone hh hu rest
    · exact scanUnits_low hl rest
  have hscan : scanUnits (codeUnits (splitMark pay).1 (splitMark pay).2) = none := by
    rw [hunits, scanUnits_text ht, hnone, Option.map_none]
  exact ⟨_, exec_utf16 hv hcap hi hin, utf16Result_unpaired heven hscan ▸ complete_completes s _⟩

/-- Settles O34: `0xD800` and `0xDC00` are multiples of `2^10`, so the low ten bits are the differences of the formula. -/
theorem surrogatePairFormula : Obligations.SurrogatePairFormula := by
  intro h l hh hl
  rw [pairElem_toNat hh hl, lowTenBits_append]
  rw [isHigh_iff] at hh
  rw [isLow_iff] at hl
  omega

end

section
/-! SUPPORT. The host's turn, the rest (10_state.md R26, R28, R29, R35): the `CMD` write, writes of read-only registers, reads
with no specified value, and register numbers outside the interface. -/

namespace Sys2Proof.Machine

variable {s : State} {r : Reg} {d : Byte} {rest : List Txn} {n i : Nat}

theorem hostWrite_cmd (hb : s.phase ≠ .busy) (w : Byte) : s.hostWrite .cmd w = s.accept w :=
  if_neg hb

/-- A write to a read-only register is dropped, in every phase and without `HERR` (R35). -/
theorem hostWrite_readOnly (hr : r ≠ .inpush ∧ r ≠ .inclr ∧ r ≠ .cmd) (s : State) (d : Byte) : s.hostWrite r d = s := by
  obtain ⟨hpush, hclr, hcmd⟩ := hr
  cases r with
  | inpush => exact absurd rfl hpush
  | inclr => exact absurd rfl hclr
  | cmd => exact absurd rfl hcmd
  | phase | ilen | flags | status | res | olen | okind | out => rfl

theorem step_write_readOnly (h : s.hostTurn (.write r.number d) rest) (hr : r ≠ .inpush ∧ r ≠ .inclr ∧ r ≠ .cmd) :
    step s = .next { s with script := rest, delay := s.delay - 1 } := by
  rw [step_hostWrite h, hostWrite_readOnly hr, hostTurn_tail h]

/-- A read with no specified value delivers the next free value, and nothing of the block changes (log 7). -/
theorem step_read_unspecified (h : s.hostTurn (.read r.number i) rest) (hv : s.readValue r i = none) :
    step s = .next
      { s with
        script := rest, delay := s.delay - 1, draws := s.draws + 1
        reads := ⟨r, i, s.unspecifiedValue r⟩ :: s.reads } := by
  rw [step_hostRead h, State.hostRead, readValue_turn, hv, hostTurn_tail h]
  rfl

theorem step_write_unknown (h : s.hostTurn (.write n d) rest) (hn : 10 < n) : step s = .refused (.noSuchRegister n) := by
  rw [hostTurn_step h]
  simp only [hostStep, regOfNumber_none hn]

theorem step_read_unknown (h : s.hostTurn (.read n i) rest) (hn : 10 < n) : step s = .refused (.noSuchRegister n) := by
  rw [hostTurn_step h]
  simp only [hostStep, regOfNumber_none hn]

/-- `WAIT` goes on when it finds `DONE` (R78). -/
theorem step_wait_done (h : s.hostTurn .wait rest) (hd : s.phase = .done) :
    step s = .next { s with script := rest, delay := s.delay - 1 } := by
  rw [hostTurn_step h, ← hostTurn_tail h]
  exact if_pos hd

/-- Before `DONE` it polls again, one host turn later (R204). -/
theorem step_wait_poll (h : s.hostTurn .wait rest) (hd : s.phase ≠ .done) : step s = .next s.poll :=
  (hostTurn_step h).trans (if_neg hd)

/-- The four result registers have their value outside `BUSY` only (R28). -/
theorem readValue_result_busy (hr : r = .status ∨ r = .res ∨ r = .olen ∨ r = .okind) (hb : s.phase = .busy) (i : Nat) :
    s.readValue r i = none := by
  rcases hr with rfl | rfl | rfl | rfl <;> exact if_pos hb

theorem readValue_status (hb : s.phase ≠ .busy) (i : Nat) : s.readValue .status i = some s.status.code.toNat :=
  if_neg hb

theorem readValue_res (hb : s.phase ≠ .busy) (i : Nat) : s.readValue .res i = some s.res.toNat :=
  if_neg hb

theorem readValue_olen (hb : s.phase ≠ .busy) (i : Nat) : s.readValue .olen i = some s.olen :=
  if_neg hb

theorem readValue_okind (hb : s.phase ≠ .busy) (i : Nat) : s.readValue .okind i = some s.okind.code.toNat :=
  if_neg hb

/-- `OUT` has a value where an element is specified below `OLEN`, outside `BUSY` (R29). -/
theorem readValue_out {e : Elem} (hb : s.phase ≠ .busy) (hi : i < s.olen) (he : s.outElem i = some e) :
    s.readValue .out i = some e.toNat := by
  simp only [State.readValue, if_neg (not_or.mpr ⟨hb, Nat.not_le.mpr hi⟩), he, Option.map_some]

theorem readValue_out_none (h : s.phase = .busy ∨ s.olen ≤ i) : s.readValue .out i = none :=
  if_pos h

/-! ### The codes of the enumerated registers (R18, R19) -/

theorem statusCode_toNat (c : Status) :
    c.code.toNat = match c with
      | .ok => 0 | .illegalCmd => 1 | .shortInput => 2 | .longInput => 3 | .oddLength => 4
      | .unpairedSurrogate => 5 | .inputOverflow => 6 := by
  cases c <;> rfl

theorem kindCode_toNat (k : Kind) :
    k.code.toNat = match k with | .none => 0 | .bytechar => 1 | .utf8raw => 2 | .scalar => 3 := by
  cases k <;> rfl

/-! ### Reset -/

/-- R191, for the block's reset from any state. -/
theorem resetBlock_afterReset (s : State) : AfterReset s.resetBlock where
  phase_idle := rfl
  lcmd_zero := rfl
  ilen_zero := rfl
  iovf_clear := rfl
  herr_clear := rfl
  status_ok := rfl
  res_zero := rfl
  okind_none := rfl
  olen_zero := rfl
  input_unspecified _ := rfl
  output_unspecified _ := rfl

end Sys2Proof.Machine
end

section
open Sys2Proof Sys2Proof.Machine

/-- Settles O38, by R26's two cases: dropped in `BUSY`, accepted otherwise. -/
theorem commandWriteIsAccepted : Obligations.CommandWriteIsAccepted := by
  intro s w rest h
  refine ⟨step_write_in_busy (r := .cmd) (.inr (.inr rfl)) h, fun hb => ⟨Config.busyDelay s.draws, ?_⟩⟩
  rw [step_hostWrite (r := .cmd) h, hostWrite_cmd (s := s.turn) hb, hostTurn_tail h]
  rfl

/-- Settles O39, by R35's cases: a read-only register is not written, a write-only one has no value, and a number above 10
is no register's. -/
theorem wrongDirectionAndUnknownRegisters : Obligations.WrongDirectionAndUnknownRegisters := by
  refine ⟨fun s n d rest h hn => ?_, fun s n i rest h hn => ?_, fun s n d rest => step_write_unknown,
    fun s n i rest => step_read_unknown⟩
  · obtain ⟨r, hr⟩ := regOfNumber_known (n := n) (by omega)
    obtain rfl := regOfNumber_eq_some.mp hr
    refine step_write_readOnly h ⟨?_, ?_, ?_⟩ <;> rintro rfl <;> simp [Reg.number] at hn
  · rcases hn with rfl | rfl
    · exact ⟨.inpush, rfl, step_read_unspecified h rfl⟩
    · exact ⟨.inclr, rfl, step_read_unspecified h rfl⟩

/-- Settles O41, register by register: specified outside `BUSY` (R28), a free value of its width in `BUSY`. -/
theorem resultReadsByPhase : Obligations.ResultReadsByPhase := by
  intro s n i rest h hn
  obtain rfl | rfl | rfl | rfl : n = 6 ∨ n = 7 ∨ n = 8 ∨ n = 9 := by omega
  · exact ⟨.status, rfl, fun hb => ⟨_, step_read_specified h (readValue_status hb i), fun _ => statusCode_toNat s.status,
      by simp, by simp, by simp⟩, fun hb => step_read_unspecified h (readValue_result_busy (.inl rfl) hb i)⟩
  · exact ⟨.res, rfl, fun hb => ⟨_, step_read_specified h (readValue_res hb i), by simp, fun _ => rfl, by simp, by simp⟩,
      fun hb => step_read_unspecified h (readValue_result_busy (.inr (.inl rfl)) hb i)⟩
  · exact ⟨.olen, rfl, fun hb => ⟨_, step_read_specified h (readValue_olen hb i), by simp, by simp, fun _ => rfl, by simp⟩,
      fun hb => step_read_unspecified h (readValue_result_busy (.inr (.inr (.inl rfl))) hb i)⟩
  · exact ⟨.okind, rfl, fun hb => ⟨_, step_read_specified h (readValue_okind hb i), by simp, by simp, by simp,
      fun _ => kindCode_toNat s.okind⟩,
      fun hb => step_read_unspecified h (readValue_result_busy (.inr (.inr (.inr rfl))) hb i)⟩

/-- Settles O42, by R29's two cases: an element below `OLEN` outside `BUSY`, a free value otherwise. -/
theorem outReadsElements : Obligations.OutReadsElements :=
  fun _ _ _ h => ⟨fun _ hb hi he => step_read_specified (r := .out) h (readValue_out hb hi he),
    fun hfree => step_read_unspecified (r := .out) h (readValue_out_none hfree)⟩

/-- Settles O43: the reset's effect is one state update, which leaves only the host's side. -/
theorem resetSetsEveryRegister : Obligations.ResetSetsEveryRegister := by
  refine ⟨fun s rest h => ⟨s.turn.resetBlock, hostTurn_step h, resetBlock_afterReset _, ?_, rfl, rfl⟩,
    resetBlock_afterReset State.reset⟩
  rw [State.resetBlock_script, hostTurn_tail h]

/-- Settles O44: with the block not busy it is not its turn, and the host has none left. -/
theorem quiescentBlockWaits : Obligations.QuiescentBlockWaits :=
  fun _ hb hs => step_quiet (blockTurn_false_of_not_busy hb) hs

/-- Settles O45, by the phase that `WAIT` finds. -/
theorem waitPollsPhase : Obligations.WaitPollsPhase :=
  fun _ _ h => ⟨step_wait_done h, step_wait_poll h⟩

end

section
/-! SUPPORT. Runs of the block with its host: the steps taken while transactions are left, how long a command keeps the block
busy (70_reset_and_hazards.md R194), and what loading bytes and running a command reaches (30_encoding.md R78, R79). -/

namespace Sys2Proof.Machine

variable {s t u : State} {x : Txn} {rest : List Txn} {bs : List Byte}

/-! ### A busy block -/

/-- In `BUSY` a write changes nothing but, perhaps, `HERR` (R24 to R26, R35). -/
theorem hostWrite_in_busy (hb : s.phase = .busy) (r : Reg) (d : Byte) :
    s.hostWrite r d = s ∨ s.hostWrite r d = s.flagProtocolError := by
  by_cases hr : r = .inpush ∨ r = .inclr ∨ r = .cmd
  · exact .inr (hostWrite_busy hr hb d)
  · exact .inl (hostWrite_readOnly (by simpa only [not_or] using hr) s d)

/-- While the host has its turns in `BUSY`, each brings the block one nearer its step, or the block is reset; and the host
stays within the interface. -/
theorem step_in_busy (hb : s.phase = .busy) (h : s.hostTurn x rest) (hknown : ∀ y ∈ s.script, y.known = true)
    (hs : step s = .next t) :
    t.phase ≠ .busy ∨ t.phase = .busy ∧ t.delay = s.delay - 1 ∧ ∀ y ∈ t.script, y.known = true := by
  have htail : ∀ y ∈ s.turn.script, y.known = true := fun y hy => hknown y (List.mem_of_mem_tail hy)
  rw [hostTurn_step h] at hs
  rcases hostStep_cases hs with ⟨n, d, r, -, -, rfl⟩ | ⟨n, i, r, -, -, rfl⟩ | ⟨-, -, rfl⟩ | ⟨-, -, rfl⟩ | ⟨-, rfl⟩ |
    ⟨-, rfl⟩
  · rcases hostWrite_in_busy (s := s.turn) hb r d with he | he <;> rw [he] <;> exact .inr ⟨hb, rfl, htail⟩
  · obtain ⟨v, m, hread⟩ := hostRead_eq s.turn r i
    rw [hread]
    exact .inr ⟨hb, rfl, htail⟩
  · exact .inr ⟨hb, rfl, htail⟩
  · exact .inr ⟨hb, rfl, hknown⟩
  · refine .inr ⟨hb, rfl, fun y hy => ?_⟩
    rcases List.mem_append.mp hy with hy | hy
    · obtain ⟨i, -, rfl⟩ := List.mem_map.mp hy
      rfl
    · exact htail y hy
  · exact .inl Phase.noConfusion

/-- A step is not refused while the host names registers of the interface only. -/
theorem BlockInv.step_next (hinv : BlockInv s) (hknown : ∀ y ∈ s.script, y.known = true) : ∃ t, step s = .next t := by
  rcases hinv.step_total with ht | ⟨n, rest, hn, -, hturn⟩
  · exact ht
  · rcases hturn with ⟨d, -, hs⟩ | ⟨i, -, hs⟩
    · have hle : n ≤ 10 := of_decide_eq_true (hknown (.write n d) (by simp [hs]))
      omega
    · have hle : n ≤ 10 := of_decide_eq_true (hknown (.read n i) (by simp [hs]))
      omega

/-- The host turns that are left bound how long the block stays busy (R194). -/
theorem busy_ends {n : Nat} (hinv : BlockInv s) (hb : s.phase = .busy) (hknown : ∀ y ∈ s.script, y.known = true)
    (hn : s.delay = n) : ∃ k t, k ≤ n + 1 ∧ runSteps k s = .next t ∧ t.phase ≠ .busy := by
  induction n generalizing s with
  | zero =>
    have hstep := step_completes ((blockTurn_iff s).mpr ⟨hb, .inl hn⟩) hinv.ilen_le
    exact ⟨1, _, le_rfl, runSteps_succ hstep 0, Phase.noConfusion⟩
  | succ n ih =>
    obtain ⟨t, hs⟩ := hinv.step_next hknown
    by_cases hidle : t.phase = .busy
    · have hturn : s.blockTurn = false := by
        rw [← Bool.not_eq_true]
        intro hturn
        rw [step_completes hturn hinv.ilen_le] at hs
        cases hs
        cases hidle
      obtain ⟨x, rest, hscript⟩ : ∃ x rest, s.script = x :: rest := by
        refine List.exists_cons_of_ne_nil fun hnil => ?_
        exact absurd ((blockTurn_iff s).mpr ⟨hb, .inr hnil⟩) (by simp [hturn])
      rcases step_in_busy hb ⟨hturn, hscript⟩ hknown hs with hne | ⟨hb', hdelay, hknown'⟩
      · exact absurd hidle hne
      · obtain ⟨k, u, hk, hrun, hu⟩ := ih ((step_effect hs).keeps_inv hinv) hb' hknown' (by omega)
        exact ⟨k + 1, u, by omega, (runSteps_succ hs k).trans hrun, hu⟩
    · exact ⟨1, t, by omega, runSteps_succ hs 0, hidle⟩

/-! ### The steps taken while transactions are left -/

/-- `t` is reached from `s` by steps none of which is taken with an exhausted script. -/
inductive Performs : State → State → Prop where
  | refl (s : State) : Performs s s
  | cons {s t u : State} (hne : s.script ≠ []) (hs : step s = .next t) (h : Performs t u) : Performs s u

theorem Performs.trans (h : Performs s t) (h' : Performs t u) : Performs s u := by
  induction h with
  | refl => exact h'
  | cons hne hs _ ih => exact .cons hne hs (ih h')

theorem Performs.runSteps (h : Performs s t) : ∃ k, runSteps k s = .next t := by
  induction h with
  | refl s => exact ⟨0, rfl⟩
  | cons _ hs _ ih =>
    obtain ⟨k, hk⟩ := ih
    exact ⟨k + 1, (runSteps_succ hs k).trans hk⟩

/-- Where they exhaust the script, the run ends (R206). -/
theorem Performs.runEnds (h : Performs s t) (hnil : t.script = []) : RunEnds s t := by
  induction h with
  | refl s => exact ⟨0, endOfRun_done hnil 0⟩
  | cons hne hs _ ih =>
    obtain ⟨k, hk⟩ := ih hnil
    exact ⟨k + 1, (endOfRun_step hne hs k).trans hk⟩

/-- One transaction of a host that finds the block not busy. -/
theorem Performs.txn (hb : s.phase ≠ .busy) (hs : s.script = x :: rest) (hstep : s.hostTurn x rest → step s = .next t) :
    Performs s t :=
  .cons (by simp [hs]) (hstep ⟨blockTurn_false_of_not_busy hb, hs⟩) (.refl t)

/-! ### Pushing bytes -/

/-- An appended byte is the last of the input. -/
theorem appendByte_input (s : State) (b : Byte) : (s.appendByte b).input = s.input ++ [b] := by
  have hlast : (s.appendByte b).inByte s.ilen = b := by
    simp [State.inByte, Memory.read_write_same]
  have hbefore : ∀ i ∈ List.range s.ilen, (s.appendByte b).inByte i = s.inByte i := by
    intro i hi
    have hne : i ≠ s.ilen := (List.mem_range.mp hi).ne
    simp only [State.inByte, State.appendByte_ibuf, Memory.read_write_other _ _ hne]
  rw [State.input, State.appendByte_ilen, List.range_succ, List.map_append, List.map_singleton, hlast,
    List.map_congr_left hbefore]
  rfl

/-- `t` is what pushing these bytes in `s` leaves: the input as far as the buffer takes it, and `IOVF` where it does not
(R24). -/
structure Pushed (s t : State) (bs : List Byte) : Prop where
  inv : BlockInv t
  phase_eq : t.phase = s.phase
  input_eq : t.input = (s.input ++ bs).take Config.ibufCap
  iovf_eq : t.iovf = (s.iovf || decide (Config.ibufCap < s.ilen + bs.length))
  herr_eq : t.herr = s.herr
  reads_eq : t.reads = s.reads

theorem Pushed.nil (hinv : BlockInv s) : Pushed s s [] where
  inv := hinv
  phase_eq := rfl
  input_eq := by simp [List.take_of_length_le, hinv.ilen_le]
  iovf_eq := by simp [hinv.ilen_le]
  herr_eq := rfl
  reads_eq := rfl

/-- A byte that finds room, before the others. -/
theorem Pushed.cons_room {b : Byte} (h : Pushed (s.turn.appendByte b) t bs) : Pushed s t (b :: bs) where
  inv := h.inv
  phase_eq := h.phase_eq
  input_eq := by
    rw [h.input_eq, appendByte_input, List.append_assoc]
    rfl
  iovf_eq := by
    have hlen : s.ilen + 1 + bs.length = s.ilen + (b :: bs).length := by simp only [List.length_cons]; omega
    rw [h.iovf_eq, ← hlen]
    rfl
  herr_eq := h.herr_eq
  reads_eq := h.reads_eq

/-- A byte that finds none, before the others, which find none either. -/
theorem Pushed.cons_full {b : Byte} (hfull : s.ilen = Config.ibufCap) (h : Pushed s.turn.flagOverflow t bs) :
    Pushed s t (b :: bs) where
  inv := h.inv
  phase_eq := h.phase_eq
  input_eq := by
    have hlen : s.input.length = Config.ibufCap := (input_length s).trans hfull
    rw [h.input_eq, List.take_left' hlen]
    exact List.take_left' hlen
  iovf_eq := by
    rw [h.iovf_eq]
    simp [hfull]
  herr_eq := h.herr_eq
  reads_eq := h.reads_eq

/-- The lines `APPEND` of a host that finds the block not busy (R79). -/
theorem performs_pushes (hinv : BlockInv s) (hb : s.phase ≠ .busy) (hs : s.script = bs.map (Txn.write 2 ·) ++ rest) :
    ∃ t, Performs s t ∧ Pushed s t bs ∧ t.script = rest := by
  induction bs generalizing s with
  | nil => exact ⟨s, .refl s, .nil hinv, hs⟩
  | cons b bs ih =>
    have hpush : s.hostTurn (.write 2 b) (bs.map (Txn.write 2 ·) ++ rest) → step s = .next (s.turn.hostWrite .inpush b) :=
      step_hostWrite (r := .inpush)
    have htail : s.turn.script = bs.map (Txn.write 2 ·) ++ rest := by rw [State.turn, hs]; rfl
    rcases Nat.lt_or_ge s.ilen Config.ibufCap with hc | hc
    · rw [hostWrite_inpush_room (s := s.turn) hb hc] at hpush
      obtain ⟨t, hperf, hpushed, ht⟩ := ih (hinv.turn.appendByte hc b) hb htail
      exact ⟨t, (Performs.txn hb hs hpush).trans hperf, hpushed.cons_room, ht⟩
    · rw [hostWrite_inpush_full (s := s.turn) hb hc] at hpush
      obtain ⟨t, hperf, hpushed, ht⟩ := ih (hinv.turn.flagOverflow hc) hb htail
      exact ⟨t, (Performs.txn hb hs hpush).trans hperf, hpushed.cons_full (hinv.ilen_le.antisymm hc), ht⟩

/-! ### Running a command -/

/-- `WAIT` on a busy block polls until the block has completed, and goes on (R78). -/
theorem performs_wait {n : Nat} (hb : s.phase = .busy) (hs : s.script = .wait :: rest) (hc : s.ilen ≤ Config.ibufCap)
    (hn : s.delay = n) :
    ∃ d, Performs s { s.complete (execResult s.lcmd s.iovf s.input) with script := rest, delay := d } := by
  have hne : s.script ≠ [] := by simp [hs]
  induction n generalizing s with
  | zero =>
    refine ⟨s.delay - 1, .cons hne (step_completes ((blockTurn_iff s).mpr ⟨hb, .inl hn⟩) hc) ?_⟩
    exact .txn Phase.noConfusion hs fun hturn => step_wait_done hturn rfl
  | succ n ih =>
    have hturn : s.hostTurn .wait rest := by
      refine ⟨?_, hs⟩
      rw [← Bool.not_eq_true, blockTurn_iff]
      rintro ⟨-, hz | hnil⟩
      · omega
      · exact hne hnil
    have hpoll : step s = .next s.poll := step_wait_poll hturn (by simp [hb])
    obtain ⟨d, hperf⟩ := ih (s := s.poll) hb hs hc (by simp [hn]) hne
    exact ⟨d, .cons hne hpoll hperf⟩

/-- The transactions of `LOAD` and `RUN` (R78, R79). -/
theorem assemble_load_run (bs : List Byte) (w : Byte) (rest : List Txn) :
    assemble (loadLines bs ++ runLines (.cmd w)) ++ rest =
      .write 3 0x00#8 :: (bs.map (Txn.write 2 ·) ++ .write 1 w :: .wait :: rest) := by
  simp [assemble, loadLines, appendLines, runLines, Line.txn, Function.comp_def]

/-- `LOAD` and `RUN` from a block that is not busy: the bytes are pushed into the emptied buffer, and the command completes
with what a client of the block is told it does (42_client_context.md R140). -/
theorem performs_load_run {w : Byte} (hinv : BlockInv s) (hb : s.phase ≠ .busy)
    (hs : s.script = assemble (loadLines bs ++ runLines (.cmd w)) ++ rest) :
    ∃ u d, Pushed s.turn.emptyInput u bs ∧
      Performs s { (u.turn.accept w).complete (useBlock w bs) with script := rest, delay := d } := by
  rw [assemble_load_run] at hs
  have hclear : Performs s s.turn.emptyInput := .txn hb hs fun h => by
    rw [step_hostWrite (r := .inclr) h, hostWrite_inclr (s := s.turn) hb]
  have htail : s.turn.emptyInput.script = bs.map (Txn.write 2 ·) ++ .write 1 w :: .wait :: rest := by
    rw [State.emptyInput_script, State.turn, hs]
    rfl
  obtain ⟨u, hpush, hpushed, hu⟩ := performs_pushes hinv.turn.emptyInput hb htail
  have hub : u.phase ≠ .busy := hpushed.phase_eq.trans_ne hb
  have hcmd : Performs u (u.turn.accept w) := .txn hub hu fun h => by
    rw [step_hostWrite (r := .cmd) h, hostWrite_cmd (s := u.turn) hub]
  have hwait : (u.turn.accept w).script = .wait :: rest := by
    rw [State.accept_script, State.turn, hu]
    rfl
  obtain ⟨d, hrun⟩ := performs_wait (s := u.turn.accept w) rfl hwait hpushed.inv.ilen_le rfl
  have hexec : execResult w u.iovf u.input = useBlock w bs := by
    rw [hpushed.iovf_eq, hpushed.input_eq, input_nil (s := s.turn.emptyInput) rfl]
    simp [useBlock]
  exact ⟨u, d, hpushed, hclear.trans (hpush.trans (hcmd.trans (hexec ▸ hrun)))⟩

/-! ### Reading the results -/

/-- What a register holds for the host does not depend on the host's side. -/
theorem readValue_hostSide (s : State) (script : List Txn) (reads : List ReadEntry) (delay : Nat) (r : Reg) (i : Nat) :
    { s with script := script, reads := reads, delay := delay : State }.readValue r i = s.readValue r i := by
  cases r <;> rfl

/-- Reads of specified values, one after the other, deliver exactly these. -/
theorem performs_reads {es : List ReadEntry} (hb : s.phase ≠ .busy)
    (hs : s.script = es.map (fun e => Txn.read e.reg.number e.index) ++ rest)
    (hv : ∀ e ∈ es, s.readValue e.reg e.index = some e.value) :
    ∃ d, Performs s { s with script := rest, delay := d, reads := es.reverse ++ s.reads } := by
  induction es generalizing s with
  | nil =>
    obtain rfl : s.script = rest := hs
    exact ⟨s.delay, .refl s⟩
  | cons e es ih =>
    have hread := Performs.txn hb hs fun h => step_read_specified h (hv e (by simp))
    obtain ⟨d, hperf⟩ := ih (s := { s with
      script := es.map (fun e => Txn.read e.reg.number e.index) ++ rest, delay := s.delay - 1
      reads := ⟨e.reg, e.index, e.value⟩ :: s.reads }) hb rfl fun e' he' => by
        rw [readValue_hostSide, hv e' (List.mem_cons_of_mem e he')]
    refine ⟨d, hread.trans ?_⟩
    rw [List.reverse_cons, List.append_assoc]
    exact hperf

/-- What reading these elements of `OUT` in order delivers (R29, R79). -/
def outEntries (elems : List Elem) : List ReadEntry := elems.zipIdx.map fun p => ⟨.out, p.2, p.1.toNat⟩

/-- The reads that `TEXT` ends with are of the indices below the `OLEN` it read. -/
theorem outEntries_txns (elems : List Elem) :
    (outEntries elems).map (fun e => Txn.read e.reg.number e.index) = (List.range elems.length).map (Txn.read 10 ·) := by
  have hidx : elems.zipIdx.map Prod.snd = List.range elems.length := by
    rw [List.zipIdx_map_snd, List.range_eq_range']
  rw [← hidx, outEntries, List.map_map, List.map_map]
  rfl

/-- They are specified values where the output buffer holds these elements. -/
theorem outEntries_specified {elems : List Elem} (hb : s.phase ≠ .busy) (holen : s.olen = elems.length)
    (helems : ∀ i (h : i < elems.length), s.outElem i = some elems[i]) :
    ∀ e ∈ outEntries elems, s.readValue e.reg e.index = some e.value := by
  intro e he
  obtain ⟨⟨x, i⟩, hp, rfl⟩ := List.mem_map.mp he
  obtain ⟨hi, rfl⟩ := List.getElem?_eq_some_iff.mp (List.mk_mem_zipIdx_iff_getElem?.mp hp)
  exact readValue_out hb (holen ▸ hi) (helems i hi)

/-- The last line of `TEXT`, once the host has read the length of these elements from `OLEN` (R79). -/
theorem performs_readAll {elems : List Elem} (hb : s.phase ≠ .busy) (hs : s.script = .readAll :: rest)
    (hread : lastOlen s.reads = elems.length) (holen : s.olen = elems.length)
    (helems : ∀ i (h : i < elems.length), s.outElem i = some elems[i]) :
    ∃ d, Performs s { s with script := rest, delay := d, reads := (outEntries elems).reverse ++ s.reads } := by
  have hexpand : Performs s (s.turn.expand ((List.range (lastOlen s.reads)).map (Txn.read 10 ·))) :=
    .txn hb hs fun h => hostTurn_step h
  have hscript : (s.turn.expand ((List.range (lastOlen s.reads)).map (Txn.read 10 ·))).script =
      (outEntries elems).map (fun e => Txn.read e.reg.number e.index) ++ rest := by
    rw [State.expand_script, hread, outEntries_txns, State.turn, hs, List.tail_cons]
  obtain ⟨d, hperf⟩ := performs_reads (s := s.turn.expand _) hb hscript
    (outEntries_specified (s := s.turn.expand _) hb holen helems)
  exact ⟨d, hexpand.trans hperf⟩

/-- What reading back the registers of a text result delivers, as `TEXT` orders them (R79). -/
def registerEntries (r : Result) : List ReadEntry :=
  [⟨.status, 0, r.status.code.toNat⟩, ⟨.okind, 0, r.kind.code.toNat⟩, ⟨.olen, 0, r.elems.length⟩]

/-- The transactions that follow `RUN DTX` in `TEXT`. -/
def textReads : List Txn := [.read 6 0, .read 9 0, .read 8 0, .readAll]

/-- After a completion these exhaust the script and deliver the whole result; `OLEN` was read last, so it bounds the reads of
`OUT`. -/
theorem performs_textReads (s : State) (r : Result) (d : Nat) :
    ∃ d', Performs { s.complete r with script := textReads, delay := d }
      { s.complete r with
        script := [], delay := d', reads := (outEntries r.elems).reverse ++ ((registerEntries r).reverse ++ s.reads) } := by
  obtain ⟨d₁, hregs⟩ := performs_reads (s := { s.complete r with script := textReads, delay := d })
    (es := registerEntries r) (rest := [.readAll]) Phase.noConfusion rfl
    (by simp [registerEntries, readValue_status, readValue_okind, readValue_olen])
  obtain ⟨d₂, hout⟩ := performs_readAll
    (s := { s.complete r with script := [.readAll], delay := d₁, reads := (registerEntries r).reverse ++ s.reads })
    Phase.noConfusion rfl rfl rfl fun i hi => complete_outElem s r hi
  exact ⟨d₂, hregs.trans hout⟩

/-- Bytes that fit the buffer are all the command's input. -/
theorem useBlock_of_fits (h : bs.length ≤ Config.ibufCap) (w : Byte) : useBlock w bs = execResult w false bs := by
  rw [useBlock, List.take_of_length_le h, decide_eq_false (Nat.not_lt.mpr h)]

/-- `TEXT` is `LOAD` and `RUN DTX`, then the reads (R79). -/
theorem assemble_textLines (bs : List Byte) :
    assemble (textLines bs) =
      assemble (loadLines bs ++ runLines (.cmd 0x03#8)) ++ textReads := by
  simp [assemble, textLines, textReads, runLines, Line.txn, Reg.number]

end Sys2Proof.Machine
end

section
open Sys2Proof Sys2Proof.Machine

/-- Settles O52, by induction on the host turns the block has left. -/
theorem busyIsFinite : Obligations.BusyIsFinite :=
  fun _ hinv hb hknown => busy_ends hinv hb hknown rfl

/-- Settles O53: the bytes pushed into the emptied buffer are `Exec`'s input, and the completion writes its result. -/
theorem loadAndRunComputesExec : Obligations.LoadAndRunComputesExec := by
  intro s bs w rest hinv hb hs
  obtain ⟨u, d, hpushed, hperf⟩ := performs_load_run hinv hb hs
  obtain ⟨k, hk⟩ := hperf.runSteps
  have hinput : u.input = bs.take Config.ibufCap := by simpa [input_nil (s := s.turn.emptyInput) rfl] using hpushed.input_eq
  have hiovf : u.iovf = decide (Config.ibufCap < bs.length) := by simpa using hpushed.iovf_eq
  exact ⟨k, _, hk, rfl, rfl, rfl, hinput, hiovf, hpushed.herr_eq, hpushed.reads_eq, rfl, rfl, rfl, rfl,
    fun a ha => complete_outElem (u.turn.accept w) (useBlock w bs) ha⟩

/-- Settles O54: after `LOAD` and `RUN` the host reads the three registers, `OLEN` last, and as many elements. -/
theorem textScriptReadsBackText : Obligations.TextScriptReadsBackText := by
  intro s bs hinv hb hfit hs
  obtain ⟨u, d, hpushed, hrun⟩ := performs_load_run hinv hb (hs.trans (assemble_textLines bs))
  have hres : useBlock 0x03#8 bs = dtxResult bs := useBlock_of_fits hfit _
  rw [hres] at hrun
  obtain ⟨d', hread⟩ := performs_textReads (u.turn.accept 0x03#8) (dtxResult bs) d
  refine ⟨_, ⟨(hrun.trans hread).runEnds rfl, Phase.noConfusion⟩, ?_⟩
  simp [outEntries, registerEntries, hpushed.reads_eq]

end

section
/-! SUPPORT. The clients' decoders over a byte source (42_client_context.md): the header, one frame, repeated frames, and the
V1 tag. -/

namespace Sys2Proof.Machine

variable {l : FrameLayout} {stream : List Byte} {major : Byte}

theorem readExactly_of_lt {n : Nat} (h : stream.length < n) : readExactly n stream = .error .readError :=
  if_neg (Nat.not_le.mpr h)

/-- The header decoder on a source that has its ten bytes (R142). -/
theorem decodeHeader_of_header {hdr : V2Header} (hlen : 10 ≤ stream.length)
    (hhdr : headerOfBytes (stream.take 10) = .ok hdr) : decodeHeader stream = .ok (hdr, stream.drop 10) := by
  simp only [decodeHeader, readExactly_of_le hlen, hhdr]

theorem decodeHeader_short (hlen : stream.length < 10) : decodeHeader stream = .error .readError := by
  simp only [decodeHeader, readExactly_of_lt hlen]

/-! ### One frame -/

/-- The header is not empty, and the identifier and the size field lie in it (R150 to R152). -/
theorem frameLayout_bounds (h : frameLayout major = some l) :
    0 < l.headerLength ∧ l.idLength + l.sizeLength ≤ l.headerLength := by
  rcases frameLayout_cases h with rfl | rfl | rfl <;> decide

/-- The bytes of the source that are the size field. -/
def sizeField (l : FrameLayout) (stream : List Byte) : List Byte :=
  ((stream.take l.headerLength).drop l.idLength).take l.sizeLength

/-- Within the header the size field is where it is in the source. -/
theorem sizeField_eq (h : l.idLength + l.sizeLength ≤ l.headerLength) (stream : List Byte) :
    sizeField l stream = (stream.drop l.idLength).take l.sizeLength := by
  rw [sizeField, List.drop_take, List.take_take, Nat.min_eq_left (by omega)]

/-- A header with an identifier and a size that decodes is a frame of that size, if the source has it (R149). -/
theorem readFrame_of_size {size : Nat} (hlen : l.headerLength ≤ stream.length)
    (hid : ((stream.take l.headerLength).take l.idLength).head? ≠ some 0x00#8)
    (hsize : useInteger l.sizeCommand (sizeField l stream) = .ok size) :
    readFrame l stream =
      if size ≤ stream.length - l.headerLength then
        .ok (⟨(stream.take l.headerLength).take l.idLength, (stream.drop l.headerLength).take size⟩,
          (stream.drop l.headerLength).drop size)
      else .error .readError := by
  rw [sizeField] at hsize
  simp only [readFrame, readExactly_of_le hlen, if_neg hid, hsize]
  by_cases hfit : size ≤ (stream.drop l.headerLength).length
  · rw [readExactly_of_le hfit, if_pos (by simpa using hfit)]
  · rw [readExactly_of_lt (Nat.lt_of_not_le hfit), if_neg (by simpa using hfit)]

theorem readFrame_short (hlen : stream.length < l.headerLength) : readFrame l stream = .error .readError := by
  simp only [readFrame, readExactly_of_lt hlen]

/-- `DBE` decodes every size field of at most four bytes (R151, R152). -/
theorem useInteger_dbe {bs : List Byte} (h : bs.length ≤ 4) : ∃ size, useInteger 0x02#8 bs = .ok size := by
  obtain ⟨v, hres, -⟩ := dbeResult_value bs h
  have hblock : useBlock 0x02#8 bs = intResult v := by
    rw [useBlock_of_length_le_five (h.trans (by decide)), ← hres]
    rfl
  exact ⟨v.toNat, by rw [useInteger, hblock]; rfl⟩

/-- The size field of a whole header always decodes, by the command of its layout. -/
theorem size_decodes (h : frameLayout major = some l) (hlen : l.headerLength ≤ stream.length) :
    ∃ size, useInteger l.sizeCommand (sizeField l stream) = .ok size := by
  rcases frameLayout_cases h with rfl | rfl | rfl
  · exact useInteger_dbe ((List.length_take_le _ _).trans (by decide))
  · exact useInteger_dbe (List.length_take_le _ _)
  · have hfour : (sizeField ⟨10, 4, 4, 0x01#8⟩ stream).length = 4 := by
      have : 10 ≤ stream.length := hlen
      simp only [sizeField, List.length_take, List.length_drop]
      omega
    obtain ⟨a, b, c, d, hbytes⟩ := List.length_eq_four.mp hfour
    exact ⟨_, by rw [hbytes]; exact useInteger_dss_four a b c d⟩

/-- Everything one frame read can answer: the end of the frames, a source that is too short, or a frame that takes its header
and its size from the source (R149, R153). -/
theorem readFrame_cases (h : frameLayout major = some l) (stream : List Byte) :
    readFrame l stream = .error .endOfFrames ∨ readFrame l stream = .error .readError ∨
      ∃ size, l.headerLength ≤ stream.length ∧ size ≤ stream.length - l.headerLength ∧
        useInteger l.sizeCommand (sizeField l stream) = .ok size ∧
        readFrame l stream =
          .ok (⟨(stream.take l.headerLength).take l.idLength, (stream.drop l.headerLength).take size⟩,
            (stream.drop l.headerLength).drop size) := by
  rcases Nat.lt_or_ge stream.length l.headerLength with hlen | hlen
  · exact .inr (.inl (readFrame_short hlen))
  · by_cases hid : ((stream.take l.headerLength).take l.idLength).head? = some 0x00#8
    · exact .inl (readFrame_null_identifier hlen hid)
    · obtain ⟨size, hsize⟩ := size_decodes h hlen
      have hframe := readFrame_of_size hlen hid hsize
      by_cases hfit : size ≤ stream.length - l.headerLength
      · exact .inr (.inr ⟨size, hlen, hfit, hsize, hframe.trans (if_pos hfit)⟩)
      · exact .inr (.inl (hframe.trans (if_neg hfit)))

/-! ### Repeated frames -/

/-- With more calls than the source has bytes the reads have ended, since every frame takes its header's bytes (R154). -/
theorem readFrames_ends (h : frameLayout major = some l) {fuel : Nat} (hfuel : stream.length < fuel) :
    (readFrames l fuel stream).2 = some .endOfFrames ∨ (readFrames l fuel stream).2 = some .readError := by
  induction fuel generalizing stream with
  | zero => omega
  | succ fuel ih =>
    rcases readFrame_cases h stream with he | he | ⟨size, hlen, -, -, he⟩
    · exact .inl (by rw [readFrames, he])
    · exact .inr (by rw [readFrames, he])
    · have hrest : ((stream.drop l.headerLength).drop size).length < fuel := by
        have hpos := (frameLayout_bounds h).1
        simp only [List.length_drop]
        omega
      rw [readFrames, he]
      exact ih hrest

/-! ### The V1 tag -/

/-- The V1 decoder answers a tag, its genre the table's name of the last byte, or finds no marker (R157). -/
theorem decodeV1_cases (genres : List String) (b : List Byte) :
    ((b.length = 128 ∧ b.take 3 = [0x54#8, 0x41#8, 0x47#8]) ∧
        ∃ tag, decodeV1 genres b = .ok tag ∧ tag.genre = genreName genres (b.getD 127 0)) ∨
      (¬ (b.length = 128 ∧ b.take 3 = [0x54#8, 0x41#8, 0x47#8]) ∧ decodeV1 genres b = .error .noTag) := by
  have htest : (b.length ≠ 128 ∨ slice b 0 3 ≠ [0x54#8, 0x41#8, 0x47#8]) ↔
      ¬ (b.length = 128 ∧ b.take 3 = [0x54#8, 0x41#8, 0x47#8]) := by
    rw [not_and_or]
    rfl
  by_cases h : b.length = 128 ∧ b.take 3 = [0x54#8, 0x41#8, 0x47#8]
  · exact .inl ⟨h, _, if_neg (htest.not.mpr (not_not_intro h)), rfl⟩
  · exact .inr ⟨h, if_pos (htest.mpr h)⟩

theorem genreName_outside {genres : List String} {index : Byte} (h : genres.length ≤ index.toNat) :
    genreName genres index = "Unspecified" :=
  List.getD_eq_default _ _ h

end Sys2Proof.Machine
end

section
open Sys2Proof Sys2Proof.Machine

/-- Settles O56: the header's own decoding does not fail on ten bytes, so only a short source does. -/
theorem headerTakesTenBytes : Obligations.HeaderTakesTenBytes := by
  refine fun stream => ⟨decodeHeader_short, fun hlen => ?_⟩
  obtain ⟨hdr, hhdr, -⟩ := headerDecodes (stream.take 10) (List.length_take_of_le hlen)
  exact ⟨hdr, hhdr, decodeHeader_of_header hlen hhdr⟩

/-- Settles O58, by what one frame read can answer: the size is the length of what is taken after the header. -/
theorem frameTakesHeaderAndSize : Obligations.FrameTakesHeaderAndSize := by
  intro major l stream f rest hl hread
  obtain ⟨-, hfield⟩ := frameLayout_bounds hl
  rcases readFrame_cases hl stream with he | he | ⟨size, hlen, hfit, hsize, he⟩ <;> rw [hread] at he
  · cases he
  · cases he
  · cases he
    have hid : (stream.take l.headerLength).take l.idLength = stream.take l.idLength := by
      rw [List.take_take, Nat.min_eq_left (by omega)]
    have hdata : ((stream.drop l.headerLength).take size).length = size :=
      List.length_take_of_le (by rwa [List.length_drop])
    refine ⟨hid, (List.take_append_drop _ _).symm, hlen, ?_⟩
    rw [← sizeField_eq hfield, hsize, hdata]

/-- Settles O59, by induction on the calls: each frame that is read leaves a shorter source. -/
theorem frameSequenceIsFinite : Obligations.FrameSequenceIsFinite :=
  fun _ _ _ hl => readFrames_ends hl (Nat.lt_succ_self _)

/-- Settles O60: the decoder tests the length and the marker, and nothing after that fails. -/
theorem v1FailsOnlyWithoutTag : Obligations.V1FailsOnlyWithoutTag := by
  refine ⟨fun genres b => ?_, fun genres b e he => ?_, fun genres b tag htag hout => ?_⟩ <;>
    rcases decodeV1_cases genres b with ⟨h, tag', hok, hgenre⟩ | ⟨h, herr⟩
  · exact ⟨fun _ => h, fun _ => ⟨tag', hok⟩⟩
  · exact ⟨fun ⟨_, hok⟩ => (by rw [herr] at hok; cases hok), fun h' => absurd h' h⟩
  · rw [hok] at he
    cases he
  · exact (Except.error.inj (herr.symm.trans he)).symm
  · obtain rfl : tag' = tag := Except.ok.inj (hok.symm.trans htag)
    exact hgenre.trans (genreName_outside hout)
  · rw [herr] at htag
    cases htag

end
